-- ==== Sys2Proof/Word.lean ====
section
/-! DEFINITION. The block's only data type: the unsigned byte of 00_scope.md R10. No value of the block is signed. -/

namespace Sys2Proof

/-- An unsigned 8-bit value; bit 0 is the least significant bit (R10). -/
abbrev Byte := BitVec 8

/-- The low byte of a natural number. Lengths and offsets are naturals, so they never wrap (R11); a register takes their low byte. -/
abbrev Byte.ofLength (n : Nat) : Byte := BitVec.ofNat 8 n

end Sys2Proof
end

