-- ==== Sys2Proof/Config.lean ====
section
/-! DEFINITION. The constants of 00_scope.md R6 and R7, each a named constant because the spec calls its source's literals unaudited (R18, log entry 10), and the two open parameters of R8. -/

namespace Sys2Proof.Config

/-- PDU_TYPE, the header's byte 0 (R6). -/
@[simp] abbrev pduType : Byte := 0x42
/-- MAC_LEN (R6). -/
@[simp] abbrev macLen : Nat := 6
/-- AD_MAX (R6). -/
@[simp] abbrev adMax : Nat := 21
/-- FRAME_MAX, FB_CAP and TB_CAP: the capacity of each buffer in bytes (R6, R7). -/
@[simp] abbrev bufferCap : Nat := 32
/-- NAME_MAX (R6). -/
@[simp] abbrev nameMax : Nat := 6
/-- MFR_MAX (R6). -/
@[simp] abbrev mfrMax : Nat := 8
/-- Each byte of CRC_INIT, in wire bit order (R6). -/
@[simp] abbrev crcInitByte : Byte := 0xAA
/-- CRC_TAP1, XORed into CRC byte1 (R6). -/
@[simp] abbrev crcTap1 : Byte := 0x60
/-- CRC_TAP2, XORed into CRC byte2 (R6). -/
@[simp] abbrev crcTap2 : Byte := 0xDA
/-- WH_SEED_OR, which forces bit 6 of the seed (R6). -/
@[simp] abbrev whSeedOr : BitVec 7 := 0x40
/-- WH_TAP (R6). -/
@[simp] abbrev whTap : Byte := 0x88
/-- FLAGS_DATA, the Flags data byte BUILD_STD writes (R6; 90_conflicts.md C7 keeps the literal). -/
@[simp] abbrev flagsData : Byte := 0x05
/-- MFR_AD_TYPE, the AD type of the Manufacturer Data structure (R6). -/
@[simp] abbrev mfrAdType : Byte := 0xFF

/-- Bus address of FB0 (10_state.md R22). -/
@[simp] abbrev fbBase : Nat := 0x60
/-- Bus address of TB0 (10_state.md R22). -/
@[simp] abbrev tbBase : Nat := 0x80
/-- What a buffer byte reads as when memory lists no cell for it: the reset value of FB and TB (R47). -/
@[simp] abbrev unlistedByte : Byte := 0x00

/-- P_FLAGS_AD_TYPE, the AD type byte of the Flags structure: an OPEN parameter (R8, D26; log entry 8).
It has no body, so a theorem holds whatever its value is. -/
opaque flagsAdType : Byte
/-- P_NAME_AD_TYPE, the AD type byte of the Local Name structure: an OPEN parameter (R8, D26; log entry 8). -/
opaque nameAdType : Byte

end Sys2Proof.Config
end

