-- ==== Sys2Proof/Machine/State.lean ====
section
/-! DEFINITION. The state of the block (10_state.md R20 to R47), the host's side of its bus (70_reset_and_hazards.md
R270), the outcomes of a step, and the state right after reset. -/

namespace Sys2Proof.Machine

/-- STATUS.FSTATE: what FB holds (R25). Value 3 is never produced and has no constructor (V4, log entry 6). -/
inductive FState where
  | empty
  | built
  | prepared
  deriving DecidableEq, Repr

/-- STATUS.ERR: the outcome code of the most recent command (R26). Values 6 and 7 are never produced and have no
constructor (V3, log entry 6). -/
inductive ErrCode where
  | ok
  | size
  | state
  | range
  | chan
  | illegal
  deriving DecidableEq, Repr

/-- The CRC register in wire bit order: byte0, byte1, byte2 are CRC0, CRC1, CRC2 (R34). -/
structure CrcReg where
  c0 : Byte
  c1 : Byte
  c2 : Byte
  deriving DecidableEq, Repr

/-- The bytes of the two buffers FB and TB by bus address (R42, R43; log entry 5). -/
abbrev Memory := List Host.Cell

/-- A location of the register map (R22). -/
inductive Loc where
  | cmd
  | status
  | chidx
  | sel
  | start
  | len
  | adlen
  | flen
  | crc0
  | crc1
  | crc2
  | wlfsr
  | namelen
  | mfrlen
  | mac (i : Fin 6)
  | name (i : Fin 6)
  | mfr (i : Fin 8)
  | ad (i : Fin 21)
  | fb (k : Fin 32)
  | tb (k : Fin 32)
  | reserved (a : Byte)
  deriving DecidableEq, Repr

/-- One access on the host bus. A byte read has width 1 and a byte write has one data byte; the other widths can be
written down so that the step can refuse them (R63). -/
inductive BusOp where
  | read (addr : Byte) (width : Nat)
  | write (addr : Byte) (data : List Byte)
  deriving DecidableEq, Repr

/-- What can reach the block from outside (R270): the reset input, or an access of a bus master. Master 0 is the one
host (R5); any other is a second agent (R72). DESIGN CHOICE: reset stands for a whole assertion of the reset input, up to
its release, so no access falls inside it; R260 leaves open how one made meanwhile is served (log entry 16). -/
inductive Event where
  | reset
  | access (master : Nat) (op : BusOp)
  deriving DecidableEq, Repr

/-- MemRead(a, 1) by the host (R12). -/
abbrev Event.rd (a : Byte) : Event := .access 0 (.read a 1)

/-- MemWrite(a, 1, v) by the host (R12). -/
abbrev Event.wr (a v : Byte) : Event := .access 0 (.write a [v])

/-- The whole state: every register of R22, the buffers, the STATUS fields (R20), and two fields of the model's own,
pending and reads, which hold the host's side of the bus (log entries 1 and 3). -/
structure State where
  fstate  : FState
  err     : ErrCode
  errSeen : Bool
  chidx   : BitVec 2
  sel     : BitVec 1
  start   : Byte
  len     : Byte
  adlen   : Byte
  flen    : Byte
  crc     : CrcReg
  wlfsr   : BitVec 7
  namelen : Byte
  mfrlen  : Byte
  mac     : Vector Byte 6
  name    : Vector Byte 6
  mfr     : Vector Byte 8
  ad      : Vector Byte 21
  mem     : Memory
  pending : List Event
  reads   : List Byte
  deriving DecidableEq, Repr

/-- Why the machine stops. The block itself has no stop (60_exceptions.md R231). -/
inductive Fault where
  /-- Raised by APPEND_CRC and ENCODE when FLEN names a byte past the 32 of a buffer. SAFE: only a state that breaks
  10_state.md R44 has such an FLEN, and no step of a state that keeps R44 raises it (log entry 7). -/
  | bufferOverrun
  deriving DecidableEq, Repr

/-- Why a step has no meaning. -/
inductive Refusal where
  /-- Raised by exec for an instruction that has no meaning yet. SAFE. No arm raises it now. -/
  | notModelled (mnemonic : String)
  /-- Raised by an access of another width than one byte, as R63 asks of a model. SAFE (V8, log entry 9). -/
  | accessWidth
  /-- Raised by an access of a second agent, as R72 asks of a model. SAFE (V9, log entry 9). -/
  | secondHost
  deriving DecidableEq, Repr

/-- What a step or a meaning answers. -/
abbrev Result := Host.Outcome State Fault Refusal

/-- The state after hardware reset or power-up: the table of R47 (R260, R243). The host has nothing pending. -/
def State.reset : State where
  fstate  := .empty
  err     := .ok
  errSeen := false
  chidx   := 0
  sel     := 0
  start   := 0x00
  len     := 0x00
  adlen   := 0x00
  flen    := 0x00
  crc     := ⟨0xAA, 0xAA, 0xAA⟩
  wlfsr   := 0x00
  namelen := 0x00
  mfrlen  := 0x00
  mac     := Vector.replicate 6 0x00
  name    := Vector.replicate 6 0x00
  mfr     := Vector.replicate 8 0x00
  ad      := Vector.replicate 21 0x00
  mem     := []
  pending := []
  reads   := []

end Sys2Proof.Machine
end

