-- ==== Sys2Proof/Syntax.lean ====
section
/-! DEFINITION. The commands of the block: one constructor per row of spec/opcode_table.json. -/

namespace Sys2Proof

/-- The ten commands of 30_encoding.md R92. No command has a field: the whole byte is the opcode and every operand
is a register (R91, R93). -/
inductive Instr where
  | nop
  | build
  | buildStd
  | appendCrc
  | crc
  | whiten
  | reverse
  | copy
  | encode
  | sreset
  deriving DecidableEq, Repr

end Sys2Proof
end

