-- ==== Sys2Proof/Machine/HostSyntax.lean ====
section
/-! DEFINITION. The lines of a host program (30_encoding.md R96 to R98). -/

namespace Sys2Proof.Machine

/-- <loc> of R96: a register name of R22, or a literal address. -/
inductive LocRef where
  | named (l : Loc)
  | literal (a : Byte)
  deriving DecidableEq, Repr

/-- One line of a host program: an access (R96), a command mnemonic (R97) or a pseudo-instruction (R98). -/
inductive HostOp where
  | wr (l : LocRef) (v : Byte)
  | rd (l : LocRef)
  | expect (l : LocRef) (v : Byte)
  | cmd (i : Instr)
  | crcFb (s n : Byte)
  | crcTb (s n : Byte)
  | whiten (c s n : Byte)
  | reverse (s n : Byte)
  | encode (c : Byte)
  | setmac (bs : List Byte)
  | setad (bs : List Byte)
  | setname (chars : List Byte)
  | setmfr (bs : List Byte)
  | settb (s : Byte) (bs : List Byte)
  deriving DecidableEq, Repr

end Sys2Proof.Machine
end

