-- ==== Sys2Proof/WellFormed.lean ====
section
/-! DEFINITION. Which commands, accesses and host program lines are well formed. -/

namespace Sys2Proof

/-- Every command is well formed: the whole byte is the opcode, so there is no field to check (30_encoding.md R91). -/
def Instr.wf : Instr → Bool
  | .nop => true
  | .build => true
  | .buildStd => true
  | .appendCrc => true
  | .crc => true
  | .whiten => true
  | .reverse => true
  | .copy => true
  | .encode => true
  | .sreset => true

/-- One byte wide (20_memory.md R63). -/
def Machine.BusOp.wf : Machine.BusOp → Bool
  | .read _ width => width == 1
  | .write _ data => data.length == 1

/-- What the host owes of an access: byte accesses only, by the one host (70_reset_and_hazards.md R270). -/
def Machine.Event.wf : Machine.Event → Bool
  | .reset => true
  | .access master op => master == 0 && op.wf

/-- A register name names a location of R22; a reserved address has none, and is written as a literal (R96). -/
def Machine.LocRef.wf : Machine.LocRef → Bool
  | .named (.reserved _) => false
  | .named _ => true
  | .literal _ => true

/-- The lengths of R98: six MAC bytes, at most six ASCII characters, at most eight record bytes; and the lengths that
keep an expansion inside its registers: at most 21 AD bytes, and TB bytes within TB (log entry 13). -/
def Machine.HostOp.wf : Machine.HostOp → Bool
  | .wr l _ => l.wf
  | .rd l => l.wf
  | .expect l _ => l.wf
  | .cmd i => i.wf
  | .crcFb _ _ => true
  | .crcTb _ _ => true
  | .whiten _ _ _ => true
  | .reverse _ _ => true
  | .encode _ => true
  | .setmac bs => bs.length == 6
  | .setad bs => decide (bs.length ≤ Config.adMax)
  | .setname chars => decide (chars.length ≤ Config.nameMax) && chars.all fun c => decide (c < 0x80#8)
  | .setmfr bs => decide (bs.length ≤ Config.mfrMax)
  | .settb s bs => decide (s.toNat + bs.length ≤ Config.bufferCap)

end Sys2Proof
end

