-- ==== Sys2Proof/Decode.lean ====
section
/-! DEFINITION. The decoder, total on every byte (30_encoding.md R95), and the encoder after it. -/

namespace Sys2Proof

/-- A row of the opcode map (R92): a command byte v selects the row with v &&& mask = pattern. -/
structure OpcodeRow where
  mask    : Byte
  pattern : Byte
  instr   : Instr
  deriving DecidableEq, Repr

/-- The opcode map (R92). The match is on all eight bits. -/
def opcodeMap : List OpcodeRow :=
  [⟨0xFF, 0x00, .nop⟩, ⟨0xFF, 0x01, .build⟩, ⟨0xFF, 0x02, .buildStd⟩, ⟨0xFF, 0x03, .appendCrc⟩,
   ⟨0xFF, 0x04, .crc⟩, ⟨0xFF, 0x05, .whiten⟩, ⟨0xFF, 0x06, .reverse⟩, ⟨0xFF, 0x07, .copy⟩,
   ⟨0xFF, 0x08, .encode⟩, ⟨0xFF, 0x09, .sreset⟩]

/-- Why a byte is no command. -/
inductive DecodeError where
  /-- An opcode of 0x0A to 0xFF (R94). The step then takes fail(ILLEGAL): it is no stop (R205). -/
  | illegalOpcode
  deriving DecidableEq, Repr

/-- The command a byte written to CMD stands for, or ILLEGAL (R92, R95). -/
def decode (v : Byte) : Except DecodeError Instr :=
  match opcodeMap.find? (fun r => v &&& r.mask == r.pattern) with
  | some r => .ok r.instr
  | none => .error .illegalOpcode

/-- The command byte of an instruction, from the opcode column of R92 and the expansions of R97. -/
def encode : Instr → Byte
  | .nop => 0x00
  | .build => 0x01
  | .buildStd => 0x02
  | .appendCrc => 0x03
  | .crc => 0x04
  | .whiten => 0x05
  | .reverse => 0x06
  | .copy => 0x07
  | .encode => 0x08
  | .sreset => 0x09

/-- The command byte of a table word of nbits bits: its first byte; the bits above nbits are 0 (log entry 15). -/
def tableWordByte (nbits w : Nat) : Byte := BitVec.ofNat 8 (w % 2 ^ nbits)

/-- The instruction the decoder reads from a word numbered as spec/opcode_table.json numbers it. -/
def decodeTableWord (nbits w : Nat) : Option Instr :=
  match decode (tableWordByte nbits w) with
  | .ok i => some i
  | .error .illegalOpcode => none

end Sys2Proof
end

