-- ==== Sys2Proof/Machine/Ops.lean ====
section
/-! DEFINITION. The shared operations: bytes of the buffers, the updates of the state, and the two ways a command ends
(00_scope.md R12, R13). -/

namespace Sys2Proof.Machine

/-! ## Buffer bytes -/

/-- The byte at a bus address. -/
def Memory.read : Memory → Nat → Byte
  | [], _ => Config.unlistedByte
  | (b, w) :: m, a => if a = b then w else Memory.read m a

/-- Memory without the cell of an address, which then reads as an unlisted one. -/
def Memory.erase (m : Memory) (a : Nat) : Memory := m.filter fun c => c.1 != a

/-- List a cell before the first higher address. -/
def Memory.insert : Memory → Nat → Byte → Memory
  | [], a, v => [(a, v)]
  | (b, w) :: m, a, v => if a < b then (a, v) :: (b, w) :: m else (b, w) :: Memory.insert m a v

/-- Write one byte and keep the canonical form: the value an unlisted address reads as is not listed. -/
def Memory.write (m : Memory) (a : Nat) (v : Byte) : Memory :=
  if v = Config.unlistedByte then m.erase a else (m.erase a).insert a v

/-- The n bytes from an address on, in increasing order: s[a .. a+n) of R11. -/
def Memory.readBytes (m : Memory) (a : Nat) : Nat → List Byte
  | 0 => []
  | n + 1 => m.read a :: Memory.readBytes m (a + 1) n

/-- Write a byte sequence from an address on, in increasing order. -/
def Memory.writeBytes (m : Memory) (a : Nat) : List Byte → Memory
  | [] => m
  | v :: vs => Memory.writeBytes (m.write a v) (a + 1) vs

/-- The canonical form: addresses strictly rising, and no cell equal to what an unlisted address reads as. -/
def Memory.wf : Memory → Bool
  | [] => true
  | [(_, v)] => v != Config.unlistedByte
  | (a, v) :: (b, w) :: m => v != Config.unlistedByte && a < b && Memory.wf ((b, w) :: m)

/-- Every listed address is one of FB or TB, 0x60 to 0x9F (R22). -/
def Memory.inBuffers (m : Memory) : Bool :=
  m.all fun c => Config.fbBase ≤ c.1 && c.1 < Config.tbBase + Config.bufferCap

/-- FB[k] (R12, R42). -/
def State.fbByte (s : State) (k : Nat) : Byte := s.mem.read (Config.fbBase + k)

/-- TB[k] (R12, R43). -/
def State.tbByte (s : State) (k : Nat) : Byte := s.mem.read (Config.tbBase + k)

/-- FB[k .. k+n). -/
def State.fbBytes (s : State) (k n : Nat) : List Byte := s.mem.readBytes (Config.fbBase + k) n

/-- TB[k .. k+n). -/
def State.tbBytes (s : State) (k n : Nat) : List Byte := s.mem.readBytes (Config.tbBase + k) n

/-- Memory after FB[k ..] takes the bytes vs. -/
def State.memWithFb (s : State) (k : Nat) (vs : List Byte) : Memory := s.mem.writeBytes (Config.fbBase + k) vs

/-- Memory after TB[k ..] takes the bytes vs. -/
def State.memWithTb (s : State) (k : Nat) (vs : List Byte) : Memory := s.mem.writeBytes (Config.tbBase + k) vs

/-! ## Updates of the state -/

/-- FB's frame: its state, its length and the memory that holds it. -/
def State.setFrame (f : FState) (n : Byte) (m : Memory) (s : State) : State := { s with fstate := f, flen := n, mem := m }

/-- CRC0, CRC1, CRC2. -/
def State.setCrc (c : CrcReg) (s : State) : State := { s with crc := c }

/-- WLFSR. -/
def State.setWlfsr (l : BitVec 7) (s : State) : State := { s with wlfsr := l }

/-- The buffers. -/
def State.setMem (m : Memory) (s : State) : State := { s with mem := m }

/-- The host accesses still to come. -/
def State.setPending (es : List Event) (s : State) : State := { s with pending := es }

/-- A host read has returned v (R271). -/
def State.logRead (v : Byte) (s : State) : State := { s with reads := s.reads ++ [v] }

/-- STATUS after a command that succeeds: ERR <- 0, ERRSEEN kept (R13, R27). -/
def State.succeeded (s : State) : State := { s with err := .ok }

/-- STATUS after a command that fails: ERR <- code, ERRSEEN <- 1, nothing else (R13, R234). -/
def State.failed (code : ErrCode) (s : State) : State := { s with err := code, errSeen := true }

/-- Every piece of the block's state at its reset value (R47). The host's side of the bus is not the block's. -/
def State.resetBlock (s : State) : State := { State.reset with pending := s.pending, reads := s.reads }

/-! ## How a command ends -/

/-- ok() of R13, over the state that holds the command's writes. -/
def ok (s : State) : Result := .next s.succeeded

/-- raise Error(code) of R13, over the state before the command. This is all the block has of an exception: no vector,
no saved state, no return (R231, R235). -/
def fail (code : ErrCode) (s : State) : Result := .next (s.failed code)

end Sys2Proof.Machine
end

