-- ==== Sys2Proof/Machine/Operands.lean ====
section
/-! DEFINITION. The operands of the commands, read from the operand registers when the command runs (30_encoding.md
R93), and the byte reads and writes of the register map (20_memory.md R61, R62). -/

namespace Sys2Proof.Machine

/-! ## Operands of commands -/

/-- The range rule: zext_9(START) + zext_9(LEN) <= 32, with no wrap (R66). -/
def State.rangeLegal (s : State) : Bool := decide (s.start.setWidth 9 + s.len.setWidth 9 ≤ 32#9)

/-- CHIDX as a channel index; 3 is none (R28, R170). -/
def State.channel (s : State) : Option (Fin 3) := if h : s.chidx.toNat < 3 then some ⟨s.chidx.toNat, h⟩ else none

/-- The bytes START .. START+LEN-1 of the buffer SEL selects: 0 = FB, 1 = TB (R29, R155). -/
def State.selectedBytes (s : State) : List Byte :=
  if s.sel = 0 then s.fbBytes s.start.toNat s.len.toNat else s.tbBytes s.start.toNat s.len.toNat

/-- The bytes START .. START+LEN-1 of TB (R173, R191). -/
def State.tbRange (s : State) : List Byte := s.tbBytes s.start.toNat s.len.toNat

/-- MAC[0 .. 6) (R38). -/
def State.macBytes (s : State) : List Byte := s.mac.toList

/-- NAME[0 .. NAMELEN) (R39). -/
def State.nameBytes (s : State) : List Byte := s.name.toList.take s.namelen.toNat

/-- MFR[0 .. MFRLEN) (R40). -/
def State.mfrBytes (s : State) : List Byte := s.mfr.toList.take s.mfrlen.toNat

/-- AD[0 .. ADLEN) (R41). -/
def State.adBytes (s : State) : List Byte := s.ad.toList.take s.adlen.toNat

/-! ## Operands of host accesses -/

/-- The register map R22, on an address as a number. -/
def locateNat (n : Nat) : Loc :=
  if n = 0x00 then .cmd
  else if n = 0x01 then .status
  else if n = 0x02 then .chidx
  else if n = 0x03 then .sel
  else if n = 0x04 then .start
  else if n = 0x05 then .len
  else if n = 0x06 then .adlen
  else if n = 0x07 then .flen
  else if n = 0x08 then .crc0
  else if n = 0x09 then .crc1
  else if n = 0x0A then .crc2
  else if n = 0x0B then .wlfsr
  else if n = 0x0C then .namelen
  else if n = 0x0D then .mfrlen
  else if h : 0x10 ≤ n ∧ n < 0x16 then .mac ⟨n - 0x10, by omega⟩
  else if h : 0x16 ≤ n ∧ n < 0x1C then .name ⟨n - 0x16, by omega⟩
  else if h : 0x20 ≤ n ∧ n < 0x28 then .mfr ⟨n - 0x20, by omega⟩
  else if h : 0x30 ≤ n ∧ n < 0x45 then .ad ⟨n - 0x30, by omega⟩
  else if h : 0x60 ≤ n ∧ n < 0x80 then .fb ⟨n - 0x60, by omega⟩
  else if h : 0x80 ≤ n ∧ n < 0xA0 then .tb ⟨n - 0x80, by omega⟩
  else .reserved (BitVec.ofNat 8 n)

/-- The location at a bus address (R22). -/
def locate (a : Byte) : Loc := locateNat a.toNat

/-- The bus address of a location (R22). -/
def Loc.addr : Loc → Byte
  | .cmd => 0x00
  | .status => 0x01
  | .chidx => 0x02
  | .sel => 0x03
  | .start => 0x04
  | .len => 0x05
  | .adlen => 0x06
  | .flen => 0x07
  | .crc0 => 0x08
  | .crc1 => 0x09
  | .crc2 => 0x0A
  | .wlfsr => 0x0B
  | .namelen => 0x0C
  | .mfrlen => 0x0D
  | .mac i => 0x10 + BitVec.ofNat 8 i
  | .name i => 0x16 + BitVec.ofNat 8 i
  | .mfr i => 0x20 + BitVec.ofNat 8 i
  | .ad i => 0x30 + BitVec.ofNat 8 i
  | .fb k => 0x60 + BitVec.ofNat 8 k
  | .tb k => 0x80 + BitVec.ofNat 8 k
  | .reserved a => a

end Sys2Proof.Machine
end

