-- ==== Sys2Proof/Machine/Crc.lean ====
section
/-! DEFINITION. The CRC-24 LFSR generator and the CRC command (41_crc24.md). -/

namespace Sys2Proof.Machine

/-- CRC_INIT, from which every pass starts (R152). -/
def crcInit : CrcReg := ⟨Config.crcInitByte, Config.crcInitByte, Config.crcInitByte⟩

/-- crc_step, one input bit (R150): t leaves byte0 at bit 0, each byte shifts right, and the taps are XORed after the
shift when t differs from the data bit. -/
def crcStep (c : CrcReg) (d : Bool) : CrcReg :=
  let t := c.c0.getLsbD 0
  let c0 := (c.c0 >>> 1) ||| ((c.c1 &&& 0x01) <<< 7)
  let c1 := (c.c1 >>> 1) ||| ((c.c2 &&& 0x01) <<< 7)
  let c2 := c.c2 >>> 1
  if t != d then ⟨c0, c1 ^^^ Config.crcTap1, c2 ^^^ Config.crcTap2⟩ else ⟨c0, c1, c2⟩

/-- crc_byte: the bits of a byte from bit 0 to bit 7 (R151). -/
def crcByte (c : CrcReg) (b : Byte) : CrcReg :=
  [0, 1, 2, 3, 4, 5, 6, 7].foldl (fun c i => crcStep c (b.getLsbD i)) c

/-- crc24: a byte sequence in increasing offset order, from CRC_INIT (R152). -/
def crc24 (bytes : List Byte) : CrcReg := bytes.foldl crcByte crcInit

/-- The three bytes of the register in frame order: byte0 first (R129). -/
def CrcReg.bytes (c : CrcReg) : List Byte := [c.c0, c.c1, c.c2]

/-- CRC (R155). -/
def execCrc (s : State) : Result :=
  if s.rangeLegal then ok (s.setCrc (crc24 s.selectedBytes)) else fail .range s

end Sys2Proof.Machine
end

