-- ==== Sys2Proof/Machine/Assembler.lean ====
section
/-! DEFINITION. The PDU frame assembler: BUILD, BUILD_STD and APPEND_CRC (40_frame_assembler.md). -/

namespace Sys2Proof.Machine

/-- assemble: header, MAC, Advertising Data and zero padding, 32 bytes for 1 to 21 AD bytes (R120). -/
def assemble (mac ad : List Byte) : List Byte :=
  [Config.pduType, Byte.ofLength (Config.macLen + ad.length)] ++ mac ++ ad ++ List.replicate (24 - ad.length) 0x00

/-- std_ad: the Flags, Local Name and Manufacturer Data structures, in that order (R126). -/
def stdAd (flagsType nameType : Byte) (name mfr : List Byte) : List Byte :=
  [0x02, flagsType, Config.flagsData]
    ++ [Byte.ofLength (1 + name.length), nameType] ++ name
    ++ [Byte.ofLength (1 + mfr.length), Config.mfrAdType] ++ mfr

/-- FB takes the assembled frame, FLEN <- 8 + n and FSTATE <- BUILT: what BUILD and BUILD_STD share (R122, R125). -/
def State.buildFrame (ad : List Byte) (s : State) : State :=
  s.setFrame .built (Byte.ofLength (8 + ad.length)) (s.memWithFb 0 (assemble s.macBytes ad))

/-- BUILD (R121, R122). -/
def execBuild (s : State) : Result :=
  if s.adlen.toNat = 0 ∨ s.adlen.toNat > Config.adMax then fail .size s
  else ok (s.buildFrame s.adBytes)

/-- BUILD_STD (R124, R125), with the open parameters of R8. -/
def execBuildStd (s : State) : Result :=
  if s.namelen.toNat > Config.nameMax ∨ s.mfrlen.toNat > Config.mfrMax then fail .size s
  else ok (s.buildFrame (stdAd Config.flagsAdType Config.nameAdType s.nameBytes s.mfrBytes))

/-- APPEND_CRC (R128): the CRC of FB[0 .. L) goes to CRC0..2 and, byte0 first, to FB[L .. L+3) (R129). L + 3 > 32 is
met only in states that break R44 (log entry 7). -/
def execAppendCrc (s : State) : Result :=
  match s.fstate with
  | .empty => fail .state s
  | .prepared => fail .state s
  | .built =>
    let n := s.flen.toNat
    if n + 3 > Config.bufferCap then .fault .bufferOverrun
    else
      let c := crc24 (s.fbBytes 0 n)
      ok ((s.setFrame .prepared (Byte.ofLength (n + 3)) (s.memWithFb n c.bytes)).setCrc c)

end Sys2Proof.Machine
end

