-- ==== Sys2Proof/Machine/Reversal.lean ====
section
/-! DEFINITION. The bit-reversal unit and the REVERSE command (43_bit_reversal.md). -/

namespace Sys2Proof.Machine

/-- rev8: bit i of the result is bit 7-i of the input (R190). -/
def rev8 (b : Byte) : Byte :=
  [0, 1, 2, 3, 4, 5, 6, 7].foldl (fun (r : Byte) (i : Nat) => r ||| (((b >>> i) &&& 0x01) <<< (7 - i))) 0x00

/-- REVERSE (R191). -/
def execReverse (s : State) : Result :=
  if s.rangeLegal then ok (s.setMem (s.memWithTb s.start.toNat (s.tbRange.map rev8))) else fail .range s

end Sys2Proof.Machine
end

