-- ==== Sys2Proof/Machine/Whitening.lean ====
section
/-! DEFINITION. The data-whitening LFSR engine and the WHITEN command (42_whitening.md). -/

namespace Sys2Proof.Machine

/-- CHAN_NUM: the BLE channel number of a channel index (R170). -/
def channelNumber : Fin 3 → BitVec 7
  | 0 => 37
  | 1 => 38
  | 2 => 39

/-- wh_seed: the channel number with bit 6 set (R170). Index 3 has no seed, so it is no argument. -/
def whSeed (i : Fin 3) : BitVec 7 := channelNumber i ||| Config.whSeedOr

/-- One turn of wh_byte's loop, at bit i: the LFSR and the mask so far (R171). The XOR is in 8 bits, and after the
shift the LFSR fits in 7. -/
def whBit (lm : BitVec 7 × Byte) (i : Nat) : BitVec 7 × Byte :=
  if lm.1.getLsbD 0 then
    (((lm.1.setWidth 8 ^^^ Config.whTap) >>> 1).setWidth 7, lm.2 ||| (0x01#8 <<< i))
  else (lm.1 >>> 1, lm.2)

/-- The mask byte and the LFSR after it, from the LFSR at the start of the byte (R171). -/
def whMask (l : BitVec 7) : BitVec 7 × Byte := [0, 1, 2, 3, 4, 5, 6, 7].foldl whBit (l, 0x00)

/-- wh_byte: the whitened byte and the LFSR after it (R171). -/
def whByte (l : BitVec 7) (b : Byte) : Byte × BitVec 7 := (b ^^^ (whMask l).2, (whMask l).1)

/-- wh_pass: wh_byte over a byte sequence in increasing offset order, from the seed (R172). -/
def whPass (l : BitVec 7) : List Byte → List Byte × BitVec 7
  | [] => ([], l)
  | b :: bs =>
    let rest := whPass (whByte l b).2 bs
    ((whByte l b).1 :: rest.1, rest.2)

/-- WHITEN (R173): CHAN is checked before RANGE (R233). -/
def execWhiten (s : State) : Result :=
  match s.channel with
  | none => fail .chan s
  | some c =>
    if s.rangeLegal then
      let pass := whPass (whSeed c) s.tbRange
      ok ((s.setMem (s.memWithTb s.start.toNat pass.1)).setWlfsr pass.2)
    else fail .range s

end Sys2Proof.Machine
end

