-- ==== Sys2Proof/Machine/Transmit.lean ====
section
/-! DEFINITION. The transmit path and the control commands: NOP, COPY, ENCODE, SRESET and the illegal opcodes
(44_transmit_path.md). -/

namespace Sys2Proof.Machine

/-- NOP (R200). -/
def execNop (s : State) : Result := ok s

/-- COPY (R201): all 32 bytes, whatever FSTATE is. -/
def execCopy (s : State) : Result := ok (s.setMem (s.memWithTb 0 (s.fbBytes 0 Config.bufferCap)))

/-- The bytes ENCODE leaves in TB: the whitened frame, each byte reversed, and zeros after it (R202). -/
def encodedBuffer (whitened : List Byte) : List Byte :=
  whitened.map rev8 ++ List.replicate (Config.bufferCap - whitened.length) 0x00

/-- ENCODE (R202): STATE is checked before CHAN (R233). FLEN > 32 is met only in states that break R44 (log entry 7). -/
def execEncode (s : State) : Result :=
  match s.fstate with
  | .empty => fail .state s
  | .built => fail .state s
  | .prepared =>
    match s.channel with
    | none => fail .chan s
    | some c =>
      if s.flen.toNat > Config.bufferCap then .fault .bufferOverrun
      else
        let pass := whPass (whSeed c) (s.fbBytes 0 s.flen.toNat)
        ok ((s.setMem (s.memWithTb 0 (encodedBuffer pass.1))).setWlfsr pass.2)

/-- SRESET (R206): the same effect as hardware reset (R261). -/
def execSreset (s : State) : Result := .next s.resetBlock

/-- An opcode of 0x0A to 0xFF: fail(ILLEGAL), and nothing else changes (R94, R205). -/
def execIllegal (s : State) : Result := fail .illegal s

end Sys2Proof.Machine
end

