-- ==== Sys2Proof/Machine/Dispatch.lean ====
section
/-! DEFINITION. One arm per command: each calls its meaning. -/

namespace Sys2Proof.Machine

/-- The effect of a command (30_encoding.md R92). -/
def exec (i : Instr) (s : State) : Host.Outcome State Fault Refusal :=
  match i with
  | .nop => Sys2Proof.Machine.execNop s
  | .build => Sys2Proof.Machine.execBuild s
  | .buildStd => Sys2Proof.Machine.execBuildStd s
  | .appendCrc => Sys2Proof.Machine.execAppendCrc s
  | .crc => Sys2Proof.Machine.execCrc s
  | .whiten => Sys2Proof.Machine.execWhiten s
  | .reverse => Sys2Proof.Machine.execReverse s
  | .copy => Sys2Proof.Machine.execCopy s
  | .encode => Sys2Proof.Machine.execEncode s
  | .sreset => Sys2Proof.Machine.execSreset s

end Sys2Proof.Machine
end

