-- ==== Sys2Proof/Machine/Flags.lean ====
section
/-! DEFINITION. The STATUS byte and its fields, the block's only flags (10_state.md R24 to R27). -/

namespace Sys2Proof.Machine

/-- The number of FSTATE (R25). -/
def FState.code : FState → Byte
  | .empty => 0
  | .built => 1
  | .prepared => 2

/-- The number of ERR (R26). -/
def ErrCode.code : ErrCode → Byte
  | .ok => 0
  | .size => 1
  | .state => 2
  | .range => 3
  | .chan => 4
  | .illegal => 5

/-- The number of ERRSEEN (R27). -/
def errSeenCode (b : Bool) : Byte := if b then 1 else 0

/-- STATUS = ERRSEEN << 5 | ERR << 2 | FSTATE (R24). -/
def State.status (s : State) : Byte := errSeenCode s.errSeen <<< 5 ||| s.err.code <<< 2 ||| s.fstate.code

end Sys2Proof.Machine
end

