-- ==== Sys2Proof/Machine/Registers.lean ====
section
/-! DEFINITION. The one place that reads and writes the locations of the register map (10_state.md R22 to R49,
20_memory.md R61, R62). -/

namespace Sys2Proof.Machine

/-- The byte a location reads as. CMD and reserved locations read 0x00 (R23, R49); narrow registers read with zero
bits above them (R28, R29, R35). -/
def State.load (s : State) : Loc → Byte
  | .cmd => 0x00
  | .status => s.status
  | .chidx => s.chidx.setWidth 8
  | .sel => s.sel.setWidth 8
  | .start => s.start
  | .len => s.len
  | .adlen => s.adlen
  | .flen => s.flen
  | .crc0 => s.crc.c0
  | .crc1 => s.crc.c1
  | .crc2 => s.crc.c2
  | .wlfsr => s.wlfsr.setWidth 8
  | .namelen => s.namelen
  | .mfrlen => s.mfrlen
  | .mac i => s.mac[i]
  | .name i => s.name[i]
  | .mfr i => s.mfr[i]
  | .ad i => s.ad[i]
  | .fb k => s.fbByte k
  | .tb k => s.tbByte k
  | .reserved _ => 0x00

/-- The state after the host stores a byte at a location other than CMD. Read-only and reserved locations ignore it
(R49); CHIDX keeps v & 0x03 and SEL keeps v & 0x01 (R28, R29); the rest keep the whole byte (R48). CMD stores nothing
(R23). -/
def State.store (s : State) (v : Byte) : Loc → State
  | .cmd => s
  | .status => s
  | .chidx => { s with chidx := v.setWidth 2 }
  | .sel => { s with sel := v.setWidth 1 }
  | .start => { s with start := v }
  | .len => { s with len := v }
  | .adlen => { s with adlen := v }
  | .flen => s
  | .crc0 => s
  | .crc1 => s
  | .crc2 => s
  | .wlfsr => s
  | .namelen => { s with namelen := v }
  | .mfrlen => { s with mfrlen := v }
  | .mac i => { s with mac := s.mac.set i v }
  | .name i => { s with name := s.name.set i v }
  | .mfr i => { s with mfr := s.mfr.set i v }
  | .ad i => { s with ad := s.ad.set i v }
  | .fb _ => s
  | .tb k => { s with mem := s.memWithTb k [v] }
  | .reserved _ => s

/-- MemRead(a, 1): the byte a host read returns (R61). It has no effect on the state. -/
def State.memRead (s : State) (a : Byte) : Byte := s.load (locate a)

end Sys2Proof.Machine
end

