-- ==== Sys2Proof/Machine/Bus.lean ====
section
/-! DEFINITION. The host's accesses and the reset input, each served whole before the next (20_memory.md R60 to R73,
70_reset_and_hazards.md R260, R270). -/

namespace Sys2Proof.Machine

/-- A byte written to CMD: decode it and run the command to completion (R90, R95). -/
def issue (v : Byte) (s : State) : Result :=
  match decode v with
  | .ok i => exec i s
  | .error .illegalOpcode => execIllegal s

/-- MemWrite(a, 1, v) (R62). -/
def hostWrite (a v : Byte) (s : State) : Result :=
  if a = 0x00 then issue v s else .next (s.store v (locate a))

/-- MemRead(a, 1): the byte goes to the host, and nothing of the block changes (R61). -/
def hostRead (a : Byte) (s : State) : Result := .next (s.logRead (s.memRead a))

/-- One bus operation of the host. One byte is the only width (R63). -/
def serveOp (op : BusOp) (s : State) : Result :=
  match op with
  | .read a width => if width = 1 then hostRead a s else .refused .accessWidth
  | .write _ [] => .refused .accessWidth
  | .write a [v] => hostWrite a v s
  | .write _ (_ :: _ :: _) => .refused .accessWidth

/-- One thing that reaches the block. Master 0 is the one host; a second agent is refused (R72). A reset is served as
one event, however long the input is held (DESIGN CHOICE, log entry 16). -/
def serve (e : Event) (s : State) : Result :=
  match e with
  | .reset => .next s.resetBlock
  | .access master op => if master = 0 then serveOp op s else .refused .secondHost

/-- With no access pending the block does nothing: it changes state only on an access or a reset (R270; log entry 2). -/
def serveNext (s : State) : Result :=
  match s.pending with
  | [] => .next s
  | e :: rest => serve e (s.setPending rest)

/-- The access that issues the command whose table word is w (R90). -/
def fetchEvent (nbits w : Nat) : Event := .wr 0x00 (tableWordByte nbits w)

end Sys2Proof.Machine
end

