-- ==== Sys2Proof/Machine/Step.lean ====
section
/-! DEFINITION. One step: the next host access or reset pulse, served whole (20_memory.md R70). -/

namespace Sys2Proof.Machine

/-- One step of the machine. -/
def step (s : State) : Host.Outcome State Fault Refusal := serveNext s

/-- The state s with the CMD write of a table word as the host's next access (log entry 1). -/
def State.withFetchWord (s : State) (nbits w : Nat) : State := s.setPending (fetchEvent nbits w :: s.pending)

end Sys2Proof.Machine
end

