-- ==== Sys2Proof/Machine/HostProgram.lean ====
section
/-! DEFINITION. The bus accesses a host program line stands for (30_encoding.md R96 to R98). A program's encoding is its
sequence of accesses. -/

namespace Sys2Proof.Machine

/-- The address of a <loc> (R96). -/
def LocRef.addr : LocRef → Byte
  | .named l => l.addr
  | .literal a => a

/-- Byte writes to successive addresses, in increasing order. -/
def writes (a : Byte) : List Byte → List Event
  | [] => []
  | v :: vs => .wr a v :: writes (a + 1) vs

/-- The CMD write of a command mnemonic (R97). -/
def cmdWrite (i : Instr) : Event := .wr Loc.cmd.addr (Sys2Proof.encode i)

/-- The accesses of a line, in the order R98 shows. An expect is a read: its check is the test harness's (R96). -/
def HostOp.expand : HostOp → List Event
  | .wr l v => [.wr l.addr v]
  | .rd l => [.rd l.addr]
  | .expect l _ => [.rd l.addr]
  | .cmd i => [cmdWrite i]
  | .crcFb s n => [.wr Loc.sel.addr 0x00, .wr Loc.start.addr s, .wr Loc.len.addr n, cmdWrite .crc]
  | .crcTb s n => [.wr Loc.sel.addr 0x01, .wr Loc.start.addr s, .wr Loc.len.addr n, cmdWrite .crc]
  | .whiten c s n => [.wr Loc.chidx.addr c, .wr Loc.start.addr s, .wr Loc.len.addr n, cmdWrite .whiten]
  | .reverse s n => [.wr Loc.start.addr s, .wr Loc.len.addr n, cmdWrite .reverse]
  | .encode c => [.wr Loc.chidx.addr c, cmdWrite .encode]
  | .setmac bs => writes (Loc.mac 0).addr bs
  | .setad bs => writes (Loc.ad 0).addr bs ++ [.wr Loc.adlen.addr (Byte.ofLength bs.length)]
  | .setname chars => writes (Loc.name 0).addr chars ++ [.wr Loc.namelen.addr (Byte.ofLength chars.length)]
  | .setmfr bs => writes (Loc.mfr 0).addr bs ++ [.wr Loc.mfrlen.addr (Byte.ofLength bs.length)]
  | .settb s bs => writes ((Loc.tb 0).addr + s) bs

/-- Whether the values a program's reads returned are those its expect lines check (R96): every rd and expect line
takes one value, the other lines none. -/
def expectationsHold : List HostOp → List Byte → Bool
  | [], values => values.isEmpty
  | .rd _ :: _, [] => false
  | .rd _ :: ops, _ :: values => expectationsHold ops values
  | .expect _ _ :: _, [] => false
  | .expect _ v :: ops, w :: values => v == w && expectationsHold ops values
  | _ :: ops, values => expectationsHold ops values

/-- The accesses of a host program. -/
def program (ops : List HostOp) : List Event := ops.flatMap HostOp.expand

/-- The state in which the host is about to run a program (R271). -/
def State.withProgram (s : State) (ops : List HostOp) : State := s.setPending (program ops)

end Sys2Proof.Machine
end

