-- ==== Sys2Proof/Safety.lean ====
section
/-! DEFINITION. What claims call a good state and a safe run. -/

namespace Sys2Proof.Machine

/-- 10_state.md R44 item 1: an EMPTY frame has length 0. -/
abbrev State.EmptyLength (s : State) : Prop := s.fstate = .empty → s.flen = 0

/-- R44 item 2: the length of a BUILT frame. -/
abbrev State.BuiltLength (s : State) : Prop := s.fstate = .built → 9 ≤ s.flen.toNat ∧ s.flen.toNat ≤ 29

/-- R44 item 3, its length half: the length of a PREPARED frame. -/
abbrev State.PreparedLength (s : State) : Prop := s.fstate = .prepared → 12 ≤ s.flen.toNat ∧ s.flen.toNat ≤ 32

/-- R44 item 3, its CRC half: a PREPARED frame ends in the CRC of the bytes before it. -/
abbrev State.PreparedCrc (s : State) : Prop :=
  s.fstate = .prepared → s.fbBytes (s.flen.toNat - 3) 3 = (crc24 (s.fbBytes 0 (s.flen.toNat - 3))).bytes

/-- R44 item 4: FB is zero past the frame. -/
abbrev State.ZeroPadding (s : State) : Prop := ∀ k, k < 32 → s.flen.toNat ≤ k → s.fbByte k = 0x00

/-- R44 item 5: the unused bits of the narrow registers read as 0. -/
abbrev State.NarrowBits (s : State) : Prop :=
  s.load .wlfsr &&& 0x80 = 0 ∧ s.load .chidx &&& 0xFC = 0 ∧ s.load .sel &&& 0xFE = 0

/-- R25: the header of a frame in FB is the PDU type, and the length of MAC and Advertising Data, which FLEN counts 2
header bytes and, once PREPARED, 3 CRC bytes above. -/
abbrev State.Header (s : State) : Prop :=
  s.fstate ≠ .empty →
    s.fbByte 0 = Config.pduType ∧ (s.fbByte 1).toNat + (if s.fstate = .prepared then 5 else 2) = s.flen.toNat

/-- R27: ERRSEEN is 1 whenever the latest command has failed. -/
abbrev State.StickyError (s : State) : Prop := s.err ≠ .ok → s.errSeen = true

/-- The buffers' memory is in canonical form and lists buffer addresses only (log entry 5). -/
abbrev State.MemoryForm (s : State) : Prop := s.mem.wf = true ∧ s.mem.inBuffers = true

/-- The invariants of R44 and R25, with the form of memory that the model adds. -/
abbrev State.Inv (s : State) : Prop :=
  s.EmptyLength ∧ s.BuiltLength ∧ s.PreparedLength ∧ s.PreparedCrc ∧ s.ZeroPadding ∧ s.NarrowBits ∧ s.MemoryForm

/-- Every access still to come is one the host may make (R270). -/
def State.HostKeepsRules (s : State) : Prop := ∀ e ∈ s.pending, e.wf = true

/-- The run of the accesses still to come, one step each (R271); none when a step stops. -/
def finish (s : State) : Host.Outcome State Fault Refusal := Host.Core.run Sys2Proof.core s.pending.length s

/-! ## Words of the spec that claims use -/

/-- The reserved addresses of R49. -/
abbrev ReservedAddr (a : Byte) : Prop :=
  (0x0E ≤ a.toNat ∧ a.toNat ≤ 0x0F) ∨ (0x1C ≤ a.toNat ∧ a.toNat ≤ 0x1F) ∨ (0x28 ≤ a.toNat ∧ a.toNat ≤ 0x2F) ∨
    (0x45 ≤ a.toNat ∧ a.toNat ≤ 0x5F) ∨ 0xA0 ≤ a.toNat

/-- The read-only addresses of R22: STATUS, FLEN, CRC0..2, WLFSR and FB. -/
abbrev ReadOnlyAddr (a : Byte) : Prop :=
  a.toNat = 0x01 ∨ (0x07 ≤ a.toNat ∧ a.toNat ≤ 0x0B) ∨ (0x60 ≤ a.toNat ∧ a.toNat ≤ 0x7F)

/-- The R/W addresses of R22 that store the whole byte: all but CHIDX (0x02) and SEL (0x03). -/
abbrev FullByteAddr (a : Byte) : Prop :=
  (0x04 ≤ a.toNat ∧ a.toNat ≤ 0x06) ∨ (0x0C ≤ a.toNat ∧ a.toNat ≤ 0x0D) ∨ (0x10 ≤ a.toNat ∧ a.toNat ≤ 0x1B) ∨
    (0x20 ≤ a.toNat ∧ a.toNat ≤ 0x27) ∨ (0x30 ≤ a.toNat ∧ a.toNat ≤ 0x44) ∨ (0x80 ≤ a.toNat ∧ a.toNat ≤ 0x9F)

/-- The normal-form value of the CRC register, rev8(c0) << 16 | rev8(c1) << 8 | rev8(c2) (R153). -/
def CrcReg.normal (c : CrcReg) : BitVec 24 := rev8 c.c0 ++ rev8 c.c1 ++ rev8 c.c2

/-- The XOR of two CRC registers, byte by byte (R154). -/
def CrcReg.xor (c d : CrcReg) : CrcReg := ⟨c.c0 ^^^ d.c0, c.c1 ^^^ d.c1, c.c2 ^^^ d.c2⟩

/-- One shift of the whitening LFSR, the turn of wh_byte's loop without its mask (R171, R175). -/
def lfsrShift (l : BitVec 7) : BitVec 7 := (whBit (l, 0x00) 0).1

/-- FB[k .. k+n) as a list, byte by byte. -/
def State.frame (s : State) (k n : Nat) : List Byte := (List.range n).map fun i => s.fbByte (k + i)

/-- The bytes START .. START+LEN-1 of the buffer SEL selects, byte by byte (R155). -/
def State.crcInput (s : State) : List Byte :=
  (List.range s.len.toNat).map fun i =>
    if s.sel = 0 then s.fbByte (s.start.toNat + i) else s.tbByte (s.start.toNat + i)

/-- The bytes START .. START+LEN-1 of TB, byte by byte (R173, R191). -/
def State.tbInput (s : State) : List Byte :=
  (List.range s.len.toNat).map fun i => s.tbByte (s.start.toNat + i)

/-- n bytes of a memory from an address on, byte by byte. -/
def Memory.bytesFrom (m : Memory) (a n : Nat) : List Byte := (List.range n).map fun i => m.read (a + i)

end Sys2Proof.Machine
end

