-- ==== Sys2Proof/Certificates/Slice0/Obligations.lean ====
section
/-! DEFINITION. The statements about the machine, each with the rules of spec/ it comes from. -/

open Sys2Proof Sys2Proof.Machine

/-! ## Encoding -/

/-- R92: the command bytes, written out from the opcode column; R94: every other byte is illegal. -/
def Obligations.CommandBytesDecode : Prop :=
  decode 0x00 = .ok .nop ∧ decode 0x01 = .ok .build ∧ decode 0x02 = .ok .buildStd ∧ decode 0x03 = .ok .appendCrc ∧
  decode 0x04 = .ok .crc ∧ decode 0x05 = .ok .whiten ∧ decode 0x06 = .ok .reverse ∧ decode 0x07 = .ok .copy ∧
  decode 0x08 = .ok .encode ∧ decode 0x09 = .ok .sreset ∧
  ∀ v : Byte, 0x0A ≤ v.toNat → decode v = .error .illegalOpcode

/-- R91, R92, R95: decoding inverts encoding, and a byte decodes to a command only if it is that command's encoding.
-/
def Obligations.DecodeInvertsEncode : Prop :=
  (∀ i : Instr, i.wf = true → decode (encode i) = .ok i) ∧ ∀ (v : Byte) (i : Instr), decode v = .ok i → encode i = v

/-! ## The step and the bus -/

/-- R90, R70: a byte the host writes to CMD is decoded, and the step runs that command whole; the access is then over.
-/
def Obligations.StepRunsIssuedCommand : Prop :=
  ∀ (s : State) (v : Byte) (rest : List Event) (i : Instr),
    s.pending = .wr 0x00 v :: rest → decode v = .ok i → step s = exec i { s with pending := rest }

/-- The next step after withFetchWord runs the placed command, from the state without it (log entry 1). -/
def Obligations.FetchedCommandRuns : Prop :=
  ∀ (s : State) (i : Instr), i.wf = true →
    decodeTableWord 8 (encode i).toNat = some i ∧ step (s.withFetchWord 8 (encode i).toNat) = exec i s

/-- R205: an opcode of 0x0A to 0xFF sets ERR = 5 and ERRSEEN = 1 and changes nothing else. -/
def Obligations.IllegalOpcodeOnlySetsStatus : Prop :=
  ErrCode.illegal.code = 5 ∧
  ∀ (s : State) (v : Byte) (rest : List Event), s.pending = .wr 0x00 v :: rest → 0x0A ≤ v.toNat →
    step s = .next { s with pending := rest, err := .illegal, errSeen := true }

/-- R61: a host read returns the location's byte, appended to the model's list of returned bytes (log entry 3), and
changes nothing of the block; and what each location reads as. -/
def Obligations.HostReadReturnsLocation : Prop :=
  (∀ (s : State) (a : Byte) (rest : List Event), s.pending = .rd a :: rest →
    step s = .next { s with pending := rest, reads := s.reads ++ [s.memRead a] }) ∧
  ∀ s : State,
    s.memRead 0x00 = 0x00 ∧ (∀ a, ReservedAddr a → s.memRead a = 0x00) ∧ s.memRead 0x01 = s.status ∧
    (s.memRead 0x02).toNat = s.chidx.toNat ∧ (s.memRead 0x03).toNat = s.sel.toNat ∧
    s.memRead 0x04 = s.start ∧ s.memRead 0x05 = s.len ∧ s.memRead 0x06 = s.adlen ∧ s.memRead 0x07 = s.flen ∧
    s.memRead 0x08 = s.crc.c0 ∧ s.memRead 0x09 = s.crc.c1 ∧ s.memRead 0x0A = s.crc.c2 ∧
    (s.memRead 0x0B).toNat = s.wlfsr.toNat ∧ s.memRead 0x0C = s.namelen ∧ s.memRead 0x0D = s.mfrlen ∧
    (∀ i : Fin 6, s.memRead (0x10 + BitVec.ofNat 8 i) = s.mac[i]) ∧
    (∀ i : Fin 6, s.memRead (0x16 + BitVec.ofNat 8 i) = s.name[i]) ∧
    (∀ i : Fin 8, s.memRead (0x20 + BitVec.ofNat 8 i) = s.mfr[i]) ∧
    (∀ i : Fin 21, s.memRead (0x30 + BitVec.ofNat 8 i) = s.ad[i]) ∧
    (∀ k : Fin 32, s.memRead (0x60 + BitVec.ofNat 8 k) = s.mem.read (0x60 + k)) ∧
    (∀ k : Fin 32, s.memRead (0x80 + BitVec.ofNat 8 k) = s.mem.read (0x80 + k))

/-- R62, R48: a host write runs a command at CMD, keeps v & 0x03 at CHIDX and v & 0x01 at SEL, keeps the whole byte at
every other R/W location and changes no other location, and has no effect elsewhere. -/
def Obligations.HostWriteStoresAtOneLocation : Prop :=
  ∀ (s : State) (a v : Byte) (rest : List Event), s.pending = .wr a v :: rest →
    (a = 0x00 → (∀ i, decode v = .ok i → step s = exec i { s with pending := rest }) ∧
      (decode v = .error .illegalOpcode →
        step s = .next { s with pending := rest, err := .illegal, errSeen := true })) ∧
    (a = 0x02 → ∃ c : BitVec 2, c.setWidth 8 = v &&& 0x03 ∧ step s = .next { s with pending := rest, chidx := c }) ∧
    (a = 0x03 → ∃ b : BitVec 1, b.setWidth 8 = v &&& 0x01 ∧ step s = .next { s with pending := rest, sel := b }) ∧
    (FullByteAddr a → ∃ t, step s = .next t ∧ t.pending = rest ∧ t.reads = s.reads ∧ t.memRead a = v ∧
      (∀ b, b ≠ a → t.memRead b = s.memRead b) ∧ ∀ n : Nat, n ≠ a.toNat → t.mem.read n = s.mem.read n) ∧
    (ReadOnlyAddr a ∨ ReservedAddr a → step s = .next { s with pending := rest })

/-- R49: writes to reserved and read-only locations change no state and set no error; a reserved location reads 0x00,
a read-only one its value. -/
def Obligations.ReservedAndReadOnlyWritesIgnored : Prop :=
  ∀ (s : State) (a v : Byte) (rest : List Event), ReservedAddr a ∨ ReadOnlyAddr a →
    (s.pending = .wr a v :: rest → step s = .next { s with pending := rest }) ∧
    (s.pending = .rd a :: rest → ∃ b, step s = .next { s with pending := rest, reads := s.reads ++ [b] } ∧
      (ReservedAddr a → b = 0x00) ∧ (a = 0x01 → b = s.status) ∧ (a = 0x07 → b = s.flen) ∧
      (a = 0x08 → b = s.crc.c0) ∧ (a = 0x09 → b = s.crc.c1) ∧ (a = 0x0A → b = s.crc.c2) ∧
      (a = 0x0B → b.toNat = s.wlfsr.toNat) ∧ (0x60 ≤ a.toNat → a.toNat ≤ 0x7F → b = s.mem.read a.toNat))

/-- R63, R72: an access of another width than one byte and an access of a second agent are refused, each by its name.
-/
def Obligations.WideAndSecondHostAccessesRefused : Prop :=
  ∀ (s : State) (rest : List Event) (a : Byte),
    (∀ w : Nat, w ≠ 1 → s.pending = .access 0 (.read a w) :: rest → step s = .refused .accessWidth) ∧
    (∀ d : List Byte, d.length ≠ 1 → s.pending = .access 0 (.write a d) :: rest → step s = .refused .accessWidth) ∧
    (∀ (m : Nat) (op : BusOp), m ≠ 0 → s.pending = .access m op :: rest → step s = .refused .secondHost)

/-- R270: with no access and no reset pending the block changes nothing (log entry 2: the step then answers the same
state, the model's choice). -/
def Obligations.IdleBlockKeepsItsState : Prop := ∀ s : State, s.pending = [] → step s = .next s

/-- R64: a byte write to a location other than CMD, done twice, leaves the state of doing it once. -/
def Obligations.HostWriteTwiceIsOnce : Prop :=
  ∀ (s t : State) (a v : Byte) (rest : List Event), a ≠ 0x00 → s.pending = .wr a v :: rest → step s = .next t →
    step { t with pending := .wr a v :: rest } = .next t

/-- R98: byte writes to two different locations other than CMD may be made in either order. The premise is the
memory's canonical form, which every step keeps. -/
def Obligations.OperandWritesCommute : Prop :=
  ∀ (s : State) (a v b w : Byte), s.MemoryForm → a ≠ 0x00 → b ≠ 0x00 → a ≠ b →
    ∃ t, t.pending = [] ∧ finish { s with pending := [.wr a v, .wr b w] } = .next t ∧
      finish { s with pending := [.wr b w, .wr a v] } = .next t

/-! ## Reset -/

/-- R47: after a pulse of the reset input or SRESET, and in the state the machine starts in, every piece of the
block's state holds its reset value, and so does every location as the host reads it. -/
def Obligations.ResetValuesAsStated : Prop :=
  ∀ s t : State,
    (t = State.reset ∨ exec .sreset s = .next t ∨ ((∃ rest, s.pending = .reset :: rest) ∧ step s = .next t)) →
    t.fstate = .empty ∧ t.err = .ok ∧ t.errSeen = false ∧ t.chidx = 0 ∧ t.sel = 0 ∧ t.flen = 0x00 ∧
    t.crc = ⟨0xAA, 0xAA, 0xAA⟩ ∧ t.wlfsr = 0 ∧ (∀ n : Nat, t.mem.read n = 0x00) ∧
    ∀ a : Byte, t.memRead a = if a = 0x08 ∨ a = 0x09 ∨ a = 0x0A then 0xAA else 0x00

/-- R206, R260: SRESET and a pulse of the reset input both put every piece of the block's state at its reset value.
Two clauses are the model's, not the rules': a reset leaves the host's pending accesses in place (log entry 4), and
neither reset clears the list of returned bytes (log entry 3). -/
def Obligations.SresetIsHardwareReset : Prop :=
  (∀ s : State, exec .sreset s = .next { State.reset with pending := s.pending, reads := s.reads }) ∧
  ∀ (s : State) (rest : List Event), s.pending = .reset :: rest →
    step s = .next { State.reset with pending := rest, reads := s.reads }

/-! ## STATUS and errors -/

/-- R24: STATUS = ERRSEEN << 5 | ERR << 2 | FSTATE, with the codes of R25 and R26; bits 7:6 read as 0. -/
def Obligations.StatusByteLayout : Prop :=
  (∀ s : State, (s.memRead 0x01).toNat =
    32 * (if s.errSeen then 1 else 0) + 4 * s.err.code.toNat + s.fstate.code.toNat ∧ (s.memRead 0x01).toNat < 64) ∧
  FState.empty.code = 0 ∧ FState.built.code = 1 ∧ FState.prepared.code = 2 ∧
  ErrCode.ok.code = 0 ∧ ErrCode.size.code = 1 ∧ ErrCode.state.code = 2 ∧ ErrCode.range.code = 3 ∧
  ErrCode.chan.code = 4 ∧ ErrCode.illegal.code = 5

/-- R230: a command that completes either leaves ERR = 0, or leaves the state before it with ERR and ERRSEEN updated.
-/
def Obligations.FailingCommandOnlySetsStatus : Prop :=
  ∀ (i : Instr) (s t : State), exec i s = .next t →
    t.err = .ok ∨ (t.err ≠ .ok ∧ t = { s with err := t.err, errSeen := true })

/-- R232, R233: each error code has exactly the causes of the table, in the table's order of checks. -/
def Obligations.ErrorCodesHaveTheirCauses : Prop :=
  ∀ (i : Instr) (s t : State), exec i s = .next t →
    (t.err = .size ↔ (i = .build ∧ (s.adlen.toNat = 0 ∨ 21 < s.adlen.toNat)) ∨
      (i = .buildStd ∧ (6 < s.namelen.toNat ∨ 8 < s.mfrlen.toNat))) ∧
    (t.err = .state ↔ (i = .appendCrc ∧ s.fstate ≠ .built) ∨ (i = .encode ∧ s.fstate ≠ .prepared)) ∧
    (t.err = .chan ↔ (i = .whiten ∧ s.chidx = 3) ∨ (i = .encode ∧ s.fstate = .prepared ∧ s.chidx = 3)) ∧
    (t.err = .range ↔ 32 < s.start.toNat + s.len.toNat ∧ (i = .crc ∨ i = .reverse ∨ (i = .whiten ∧ s.chidx ≠ 3))) ∧
    t.err ≠ .illegal

/-- R27: ERRSEEN is set by every failing command, the illegal ones among them, and cleared by nothing but SRESET and
the reset input. -/
def Obligations.ErrSeenIsSticky : Prop :=
  (∀ (s t : State) (v : Byte) (rest : List Event), s.pending = .wr 0x00 v :: rest → step s = .next t →
    t.err ≠ .ok → t.errSeen = true) ∧
  ∀ s t : State, step s = .next t → s.errSeen = true →
    t.errSeen = true ∨ (∃ rest, s.pending = .reset :: rest) ∨ ∃ rest, s.pending = .wr 0x00 0x09 :: rest

/-- R27: every step keeps ERRSEEN = 1 in a state whose latest command failed. -/
def Obligations.StepKeepsStickyError : Prop :=
  State.reset.StickyError ∧ ∀ s t : State, s.StickyError → step s = .next t → t.StickyError

/-! ## The commands -/

/-- R200: NOP clears ERR and has no other effect. -/
def Obligations.NopClearsErrorCode : Prop := ∀ s : State, exec .nop s = .next { s with err := .ok }

/-- R121, R122: BUILD fails with SIZE outside 1 to 21 AD bytes; else FB holds header, MAC, AD and zeros, and every
byte outside FB and every other register keeps its value. -/
def Obligations.BuildAssemblesFrame : Prop :=
  ∀ s : State,
    (s.adlen.toNat = 0 ∨ 21 < s.adlen.toNat → exec .build s = .next { s with err := .size, errSeen := true }) ∧
    (1 ≤ s.adlen.toNat → s.adlen.toNat ≤ 21 →
      ∃ m : Memory,
        exec .build s = .next { s with fstate := .built, flen := 8 + s.adlen, mem := m, err := .ok } ∧
        m.read 0x60 = 0x42 ∧ m.read 0x61 = 6 + s.adlen ∧
        (∀ i : Fin 6, m.read (0x62 + i) = s.mac[i]) ∧
        (∀ i : Fin 21, i.val < s.adlen.toNat → m.read (0x68 + i) = s.ad[i]) ∧
        (∀ k, 8 + s.adlen.toNat ≤ k → k < 32 → m.read (0x60 + k) = 0x00) ∧
        ∀ a, a < 0x60 ∨ 0x80 ≤ a → m.read a = s.mem.read a)

/-- R124, R125, R126: BUILD_STD fails with SIZE for a name over 6 or a record over 8 bytes; else FB holds header, MAC,
the Flags, Local Name and Manufacturer Data structures and zeros, whatever the two open AD type bytes are, and every
byte outside FB and every other register keeps its value. -/
def Obligations.BuildStdAssemblesStandardFrame : Prop :=
  ∀ s : State,
    (6 < s.namelen.toNat ∨ 8 < s.mfrlen.toNat →
      exec .buildStd s = .next { s with err := .size, errSeen := true }) ∧
    (s.namelen.toNat ≤ 6 → s.mfrlen.toNat ≤ 8 →
      ∃ m : Memory,
        exec .buildStd s =
          .next { s with fstate := .built, flen := 15 + s.namelen + s.mfrlen, mem := m, err := .ok } ∧
        m.read 0x60 = 0x42 ∧ m.read 0x61 = 13 + s.namelen + s.mfrlen ∧
        (∀ i : Fin 6, m.read (0x62 + i) = s.mac[i]) ∧
        m.read 0x68 = 0x02 ∧ m.read 0x69 = Config.flagsAdType ∧ m.read 0x6A = 0x05 ∧
        m.read 0x6B = 1 + s.namelen ∧ m.read 0x6C = Config.nameAdType ∧
        (∀ i : Fin 6, i.val < s.namelen.toNat → m.read (0x6D + i) = s.name[i]) ∧
        m.read (0x6D + s.namelen.toNat) = 1 + s.mfrlen ∧ m.read (0x6E + s.namelen.toNat) = 0xFF ∧
        (∀ i : Fin 8, i.val < s.mfrlen.toNat → m.read (0x6F + s.namelen.toNat + i) = s.mfr[i]) ∧
        (∀ k, 15 + s.namelen.toNat + s.mfrlen.toNat ≤ k → k < 32 → m.read (0x60 + k) = 0x00) ∧
        ∀ a, a < 0x60 ∨ 0x80 ≤ a → m.read a = s.mem.read a)

/-- R128, R129: APPEND_CRC fails with STATE unless FSTATE is BUILT; else the CRC of FB[0 .. FLEN) goes to CRC0..2 and,
byte0 first, to the three bytes after the frame, and nothing else changes. The premise on FLEN is R44's. -/
def Obligations.AppendCrcSealsFrame : Prop :=
  ∀ s : State,
    (s.fstate ≠ .built → exec .appendCrc s = .next { s with err := .state, errSeen := true }) ∧
    (s.fstate = .built → s.flen.toNat ≤ 29 →
      ∃ (m : Memory) (c : CrcReg), c = crc24 (s.frame 0 s.flen.toNat) ∧
        exec .appendCrc s =
          .next { s with fstate := .prepared, flen := s.flen + 3, crc := c, mem := m, err := .ok } ∧
        m.read (0x60 + s.flen.toNat) = c.c0 ∧ m.read (0x61 + s.flen.toNat) = c.c1 ∧
        m.read (0x62 + s.flen.toNat) = c.c2 ∧
        ∀ a, a < 0x60 + s.flen.toNat ∨ 0x63 + s.flen.toNat ≤ a → m.read a = s.mem.read a)

/-- R155: CRC fails with RANGE when START + LEN > 32; else CRC0..2 take the CRC of the selected range and nothing else
changes but ERR. -/
def Obligations.CrcComputesSelectedRange : Prop :=
  ∀ s : State,
    (32 < s.start.toNat + s.len.toNat → exec .crc s = .next { s with err := .range, errSeen := true }) ∧
    (s.start.toNat + s.len.toNat ≤ 32 → exec .crc s = .next { s with crc := crc24 s.crcInput, err := .ok })

/-- R156: a zero-length CRC succeeds with AA AA AA. -/
def Obligations.ZeroLengthCrcGivesInitialValue : Prop :=
  ∀ s : State, s.len = 0 → s.start.toNat ≤ 32 →
    exec .crc s = .next { s with crc := ⟨0xAA, 0xAA, 0xAA⟩, err := .ok }

/-- R173, R233: WHITEN fails with CHAN for index 3, then with RANGE; else the range of TB is whitened from the
channel's seed, WLFSR takes the final LFSR, and nothing else changes. -/
def Obligations.WhitenWhitensRange : Prop :=
  ∀ s : State,
    (s.chidx = 3 → exec .whiten s = .next { s with err := .chan, errSeen := true }) ∧
    (s.chidx ≠ 3 → 32 < s.start.toNat + s.len.toNat →
      exec .whiten s = .next { s with err := .range, errSeen := true }) ∧
    (∀ c : Fin 3, s.chidx.toNat = c.val → s.start.toNat + s.len.toNat ≤ 32 →
      ∃ m : Memory,
        exec .whiten s = .next { s with mem := m, wlfsr := (whPass (whSeed c) s.tbInput).2, err := .ok } ∧
        m.bytesFrom (0x80 + s.start.toNat) s.len.toNat = (whPass (whSeed c) s.tbInput).1 ∧
        ∀ a, a < 0x80 + s.start.toNat ∨ 0x80 + s.start.toNat + s.len.toNat ≤ a → m.read a = s.mem.read a)

/-- R191: REVERSE fails with RANGE when START + LEN > 32; else each byte of the range of TB is bit-reversed in place
and nothing else changes. -/
def Obligations.ReverseReversesRange : Prop :=
  ∀ s : State,
    (32 < s.start.toNat + s.len.toNat → exec .reverse s = .next { s with err := .range, errSeen := true }) ∧
    (s.start.toNat + s.len.toNat ≤ 32 →
      ∃ m : Memory, exec .reverse s = .next { s with mem := m, err := .ok } ∧
        m.bytesFrom (0x80 + s.start.toNat) s.len.toNat = s.tbInput.map rev8 ∧
        ∀ a, a < 0x80 + s.start.toNat ∨ 0x80 + s.start.toNat + s.len.toNat ≤ a → m.read a = s.mem.read a)

/-- R201: COPY copies all 32 bytes of FB to TB in every state, and changes nothing else but ERR. -/
def Obligations.CopyCopiesWholeBuffer : Prop :=
  ∀ s : State, ∃ m : Memory, exec .copy s = .next { s with mem := m, err := .ok } ∧
    (∀ k, k < 32 → m.read (0x80 + k) = s.mem.read (0x60 + k)) ∧
    ∀ a, a < 0x80 ∨ 0xA0 ≤ a → m.read a = s.mem.read a

/-- R202, R233: ENCODE fails with STATE unless FSTATE is PREPARED, then with CHAN for index 3; else TB takes the
frame, whitened and then bit-reversed, and zeros after it, WLFSR the final LFSR, and nothing else changes. The premise
on FLEN is R44's. -/
def Obligations.EncodeEncodesPreparedFrame : Prop :=
  ∀ s : State,
    (s.fstate ≠ .prepared → exec .encode s = .next { s with err := .state, errSeen := true }) ∧
    (s.fstate = .prepared → s.chidx = 3 → exec .encode s = .next { s with err := .chan, errSeen := true }) ∧
    (∀ c : Fin 3, s.fstate = .prepared → s.chidx.toNat = c.val → s.flen.toNat ≤ 32 →
      ∃ m : Memory,
        exec .encode s =
          .next { s with mem := m, wlfsr := (whPass (whSeed c) (s.frame 0 s.flen.toNat)).2, err := .ok } ∧
        m.bytesFrom 0x80 s.flen.toNat = (whPass (whSeed c) (s.frame 0 s.flen.toNat)).1.map rev8 ∧
        (∀ k, s.flen.toNat ≤ k → k < 32 → m.read (0x80 + k) = 0x00) ∧
        ∀ a, a < 0x80 ∨ 0xA0 ≤ a → m.read a = s.mem.read a)

/-- Log entry 7, the model's choice: APPEND_CRC and ENCODE stop with bufferOverrun where FLEN names bytes past the
buffer, which R44 rules out. -/
def Obligations.OverlongFrameStopsByName : Prop :=
  ∀ s : State,
    (s.fstate = .built → 29 < s.flen.toNat → exec .appendCrc s = .fault .bufferOverrun) ∧
    (s.fstate = .prepared → s.chidx ≠ 3 → 32 < s.flen.toNat → exec .encode s = .fault .bufferOverrun)

/-! ## What the commands leave alone -/

/-- R25, R33, R42: only BUILD, BUILD_STD, APPEND_CRC and SRESET change FSTATE, FLEN or a byte of FB. -/
def Obligations.FrameChangesOnlyByItsWriters : Prop :=
  ∀ (i : Instr) (s t : State), exec i s = .next t → i ≠ .build → i ≠ .buildStd → i ≠ .appendCrc → i ≠ .sreset →
    t.fstate = s.fstate ∧ t.flen = s.flen ∧ ∀ k, k < 32 → t.fbByte k = s.fbByte k

/-- R43, R266: only COPY, ENCODE, WHITEN, REVERSE and SRESET, of the commands, change a byte of TB. -/
def Obligations.TransmitBufferChangesOnlyByItsWriters : Prop :=
  ∀ (i : Instr) (s t : State), exec i s = .next t → i ≠ .copy → i ≠ .encode → i ≠ .whiten → i ≠ .reverse →
    i ≠ .sreset → ∀ k, k < 32 → t.tbByte k = s.tbByte k

/-- R34, R35: only CRC, APPEND_CRC and SRESET change CRC0..2; only WHITEN, ENCODE and SRESET change WLFSR. -/
def Obligations.ResultRegistersChangeOnlyByTheirWriters : Prop :=
  ∀ (i : Instr) (s t : State), exec i s = .next t →
    (i ≠ .crc → i ≠ .appendCrc → i ≠ .sreset → t.crc = s.crc) ∧
    (i ≠ .whiten → i ≠ .encode → i ≠ .sreset → t.wlfsr = s.wlfsr)

/-- R211 and the head of section 4 of 10_state.md: no command but SRESET writes an operand or staging register. That
no command, SRESET included, changes the pending accesses or the returned bytes is the model's clause (log entries 1
and 3). -/
def Obligations.OperandRegistersChangeOnlyBySreset : Prop :=
  ∀ (i : Instr) (s t : State), exec i s = .next t →
    t.pending = s.pending ∧ t.reads = s.reads ∧
    (i ≠ .sreset → t.chidx = s.chidx ∧ t.sel = s.sel ∧ t.start = s.start ∧ t.len = s.len ∧ t.adlen = s.adlen ∧
      t.namelen = s.namelen ∧ t.mfrlen = s.mfrlen ∧ t.mac = s.mac ∧ t.name = s.name ∧ t.mfr = s.mfr ∧ t.ad = s.ad)

/-- R46: no command's result depends on CRC0..2 or WLFSR before it: with other values there, it answers the same
state, but for those it does not write. -/
def Obligations.TransientRegistersAreNotRead : Prop :=
  ∀ (i : Instr) (s t : State) (c : CrcReg) (l : BitVec 7), exec i s = .next t →
    ∃ c' l', exec i { s with crc := c, wlfsr := l } = .next { t with crc := c', wlfsr := l' } ∧
      (c' = t.crc ∨ (c' = c ∧ t.crc = s.crc)) ∧ (l' = t.wlfsr ∨ (l' = l ∧ t.wlfsr = s.wlfsr))

/-- R93, R92: a command's result does not depend on an operand register that the opcode map does not list for it. -/
def Obligations.UnlistedOperandsAreNotRead : Prop :=
  ∀ (i : Instr) (s t : State), i ≠ .sreset → exec i s = .next t →
    (i ≠ .build → ∀ n v, exec i { s with adlen := n, ad := v } = .next { t with adlen := n, ad := v }) ∧
    (i ≠ .buildStd → ∀ n v r w, exec i { s with namelen := n, name := v, mfrlen := r, mfr := w } =
      .next { t with namelen := n, name := v, mfrlen := r, mfr := w }) ∧
    (i ≠ .build → i ≠ .buildStd → ∀ v, exec i { s with mac := v } = .next { t with mac := v }) ∧
    (i ≠ .whiten → i ≠ .encode → ∀ c, exec i { s with chidx := c } = .next { t with chidx := c }) ∧
    (i ≠ .crc → ∀ b, exec i { s with sel := b } = .next { t with sel := b }) ∧
    (i ≠ .crc → i ≠ .whiten → i ≠ .reverse → ∀ a n, exec i { s with start := a, len := n } =
      .next { t with start := a, len := n })

/-! ## Invariants and safety -/

/-- After reset the invariants of R44 hold, the header of a frame is true of its length (R25, R120), and ERRSEEN shows
any failure (R27). The canonical form of memory, which Inv also holds, is the model's own (log entry 5). -/
def Obligations.ResetMeetsInvariants : Prop := State.reset.Inv ∧ State.reset.Header ∧ State.reset.StickyError

/-- R44, which the spec marks as derived from R25, R122, R128 and R206: every command, every host access and every
reset keeps the invariants, and they hold after reset. The canonical form of memory, which the model adds, is kept
with them (log entry 5). -/
def Obligations.StepKeepsInvariants : Prop :=
  State.reset.Inv ∧ ∀ s t : State, s.Inv → step s = .next t → t.Inv

/-- R25, R120: every step keeps the header of the frame in FB true of its length. -/
def Obligations.StepKeepsFrameHeader : Prop :=
  ∀ s t : State, s.Inv → s.Header → step s = .next t → t.Header

/-- R231: from a state that meets the invariants no command stops the block, and no access the host may make does. -/
def Obligations.NothingStopsTheBlock : Prop :=
  (∀ (i : Instr) (s : State), s.Inv → ∃ t, exec i s = .next t) ∧
  ∀ s : State, s.Inv → s.HostKeepsRules → ∃ t, step s = .next t

/-- R269, R271: from a state that meets the invariants, a run of accesses the host may make serves them all, ends, and
ends in a state that meets the invariants: those of R44, and the canonical form of memory, which is the model's own
(log entry 5). That the accesses to come are a list the run serves one a step is the model's as well (log entry 1). -/
def Obligations.EveryRunEnds : Prop :=
  ∀ s : State, s.Inv → s.HostKeepsRules → ∃ t, finish s = .next t ∧ t.pending = [] ∧ t.Inv

/-! ## The units' functions -/

/-- R190: rev8 sends bit i to bit 7-i and is its own inverse. -/
def Obligations.Rev8ReversesBits : Prop :=
  (∀ (b : Byte) (i : Nat), i < 8 → (rev8 b).getLsbD i = b.getLsbD (7 - i)) ∧ (∀ b : Byte, rev8 (rev8 b) = b) ∧
  rev8 0x01 = 0x80 ∧ rev8 0xF0 = 0x0F

/-- R153, which the spec marks as derived from R150 to R152: in normal form a CRC step is a left shift with the
polynomial 0x00065B, and CRC_INIT is 0x555555. -/
def Obligations.CrcStepRealisesPolynomial : Prop :=
  (∀ (c : CrcReg) (d : Bool), (crcStep c d).normal =
    (c.normal <<< 1) ^^^ (if c.normal.getLsbD 23 != d then 0x00065B else 0x000000)) ∧
  crcInit.normal = 0x555555

/-- R154 item 1, which the spec marks as derived from R150 to R153: the CRC of a sequence followed by its own CRC is
zero. -/
def Obligations.CrcZeroResidue : Prop :=
  ∀ bytes : List Byte, crc24 (bytes ++ (crc24 bytes).bytes) = ⟨0x00, 0x00, 0x00⟩

/-- R154 item 2, which the spec marks as derived from R150 to R153: crc24 is affine over XOR. -/
def Obligations.CrcIsAffine : Prop :=
  ∀ a b : List Byte, a.length = b.length →
    crc24 (List.zipWith (· ^^^ ·) a b) =
      ((crc24 a).xor (crc24 b)).xor (crc24 (List.replicate a.length 0x00))

/-- R170: the channel numbers and seeds of indices 0, 1 and 2; index 3 has none, and WHITEN and ENCODE reject it. -/
def Obligations.ChannelSeedsAsStated : Prop :=
  channelNumber 0 = 37 ∧ channelNumber 1 = 38 ∧ channelNumber 2 = 39 ∧
  (∀ i : Fin 3, whSeed i = channelNumber i ||| 0x40) ∧ whSeed 0 = 0x65 ∧ whSeed 1 = 0x66 ∧ whSeed 2 = 0x67 ∧
  ∀ s : State, s.chidx = 3 → exec .whiten s = .next { s with err := .chan, errSeen := true } ∧
    (s.fstate = .prepared → exec .encode s = .next { s with err := .chan, errSeen := true })

/-- R174, which the spec marks as derived from R171 and R172: whitening twice from one seed gives the bytes back. -/
def Obligations.WhiteningIsInvolution : Prop :=
  ∀ (l : BitVec 7) (bytes : List Byte), (whPass l (whPass l bytes).1).1 = bytes

/-- R171, R172, and R175, which the spec marks as derived from R171: the shift in closed form, its bijection, its
fixed point, its period 127 and the mask bit it emits; and a pass over any bytes from any start value, bit by bit: bit
i of byte k is the data bit XOR bit 0 of the LFSR after 8k+i shifts, and the final LFSR is the one after eight shifts
a byte. -/
def Obligations.WhiteningLfsrStructure : Prop :=
  (∀ (l : BitVec 7) (m : Byte) (i : Nat), whBit (l, m) i =
    ((l >>> 1) ^^^ (if l.getLsbD 0 then 0x44 else 0x00), m ||| (if l.getLsbD 0 then 0x01#8 <<< i else 0x00))) ∧
  (∀ l l' : BitVec 7, lfsrShift l = lfsrShift l' → l = l') ∧ (∀ l : BitVec 7, ∃ l', lfsrShift l' = l) ∧
  lfsrShift 0 = 0 ∧
  (∀ l : BitVec 7, l ≠ 0 → lfsrShift^[127] l = l ∧ ∀ k, 0 < k → k < 127 → lfsrShift^[k] l ≠ l) ∧
  ∀ (l : BitVec 7) (bytes : List Byte),
    (whPass l bytes).2 = lfsrShift^[8 * bytes.length] l ∧ (whPass l bytes).1.length = bytes.length ∧
    ∀ (k i : Nat) (b : Byte), bytes[k]? = some b → i < 8 → ∃ w, (whPass l bytes).1[k]? = some w ∧
      w.getLsbD i = (b.getLsbD i ^^ (lfsrShift^[8 * k + i] l).getLsbD 0)

/-! ## Sequences of commands -/

/-- R203, which the spec marks as derived from R201, R202, R173, R191 and R44: for a PREPARED frame ENCODE leaves the
state of COPY, WHITEN over the frame and REVERSE over the frame, but for the START and LEN the hand sequence has
written. -/
def Obligations.EncodeEqualsHandSequence : Prop :=
  ∀ s : State, s.Inv → s.fstate = .prepared → s.chidx ≠ 3 →
    ∃ t₁ t₂ t₃ t, exec .copy s = .next t₁ ∧ exec .whiten { t₁ with start := 0, len := s.flen } = .next t₂ ∧
      exec .reverse t₂ = .next t₃ ∧ exec .encode s = .next t ∧ t₃ = { t with start := 0, len := s.flen }

/-- R204: a PREPARED frame may be encoded any number of times, on any channels: ENCODE keeps FB, FLEN and FSTATE, and
a later ENCODE of the same channel gives the same state again, whatever channel was encoded between. -/
def Obligations.EncodeIsRepeatable : Prop :=
  (∀ s t : State, exec .encode s = .next t →
    t.fstate = s.fstate ∧ t.flen = s.flen ∧ ∀ k, k < 32 → t.fbByte k = s.fbByte k) ∧
  ∀ (s : State) (c : BitVec 2), s.Inv → s.fstate = .prepared → s.chidx ≠ 3 → c ≠ 3 →
    ∃ t u, exec .encode s = .next t ∧ exec .encode t = .next t ∧
      exec .encode { t with chidx := c } = .next u ∧ exec .encode { u with chidx := s.chidx } = .next t

/-- R263, R174, R190, R154: reversing and un-whitening an encoded frame gives FB's frame back, and its CRC passes the
check, both over the bytes before it and as a zero residue. -/
def Obligations.EncodedFrameDecodes : Prop :=
  ∀ s : State, s.Inv → s.fstate = .prepared → s.chidx ≠ 3 →
    ∃ t u v w x, exec .encode s = .next t ∧ exec .reverse { t with start := 0, len := s.flen } = .next u ∧
      exec .whiten u = .next v ∧ (∀ k, k < s.flen.toNat → v.tbByte k = s.fbByte k) ∧
      exec .crc { v with sel := 1, len := s.flen - 3 } = .next w ∧ w.crc.bytes = s.frame (s.flen.toNat - 3) 3 ∧
      exec .crc { v with sel := 1 } = .next x ∧ x.crc = ⟨0x00, 0x00, 0x00⟩

/-! ## Host programs -/

/-- R97, R98: a command mnemonic is its one CMD write and runs its command; setmac, setname and setmfr store their
bytes and their length, settb stores its bytes in TB, and each changes nothing else. -/
def Obligations.MnemonicsAndStagingLinesTakeEffect : Prop :=
  ((HostOp.cmd .nop).expand = [.wr 0x00 0x00] ∧ (HostOp.cmd .build).expand = [.wr 0x00 0x01] ∧
    (HostOp.cmd .buildStd).expand = [.wr 0x00 0x02] ∧ (HostOp.cmd .appendCrc).expand = [.wr 0x00 0x03] ∧
    (HostOp.cmd .crc).expand = [.wr 0x00 0x04] ∧ (HostOp.cmd .whiten).expand = [.wr 0x00 0x05] ∧
    (HostOp.cmd .reverse).expand = [.wr 0x00 0x06] ∧ (HostOp.cmd .copy).expand = [.wr 0x00 0x07] ∧
    (HostOp.cmd .encode).expand = [.wr 0x00 0x08] ∧ (HostOp.cmd .sreset).expand = [.wr 0x00 0x09]) ∧
  (∀ (s : State) (i : Instr),
    finish { s with pending := (HostOp.cmd i).expand } = exec i { s with pending := [] }) ∧
  (∀ (s : State) (bs : List Byte), bs.length = 6 → ∃ m : Vector Byte 6,
    finish { s with pending := (HostOp.setmac bs).expand } = .next { s with pending := [], mac := m } ∧
    m.toList = bs) ∧
  (∀ (s : State) (bs : List Byte), bs.length ≤ 6 → ∃ n : Vector Byte 6,
    finish { s with pending := (HostOp.setname bs).expand } =
      .next { s with pending := [], name := n, namelen := BitVec.ofNat 8 bs.length } ∧
    n.toList = bs ++ s.name.toList.drop bs.length) ∧
  (∀ (s : State) (bs : List Byte), bs.length ≤ 8 → ∃ r : Vector Byte 8,
    finish { s with pending := (HostOp.setmfr bs).expand } =
      .next { s with pending := [], mfr := r, mfrlen := BitVec.ofNat 8 bs.length } ∧
    r.toList = bs ++ s.mfr.toList.drop bs.length) ∧
  ∀ (s : State) (k : Byte) (bs : List Byte), k.toNat + bs.length ≤ 32 → ∃ m : Memory,
    finish { s with pending := (HostOp.settb k bs).expand } = .next { s with pending := [], mem := m } ∧
    m.bytesFrom (0x80 + k.toNat) bs.length = bs ∧
    ∀ a, a < 0x80 + k.toNat ∨ 0x80 + k.toNat + bs.length ≤ a → m.read a = s.mem.read a

/-- R98: the lines that set operands and issue a command run it on those operands. -/
def Obligations.PseudoInstructionsSetOperandsAndRun : Prop :=
  ∀ (s : State) (c a n : Byte),
    finish { s with pending := (HostOp.encode c).expand } =
      exec .encode { s with pending := [], chidx := c.setWidth 2 } ∧
    finish { s with pending := (HostOp.whiten c a n).expand } =
      exec .whiten { s with pending := [], chidx := c.setWidth 2, start := a, len := n } ∧
    finish { s with pending := (HostOp.reverse a n).expand } =
      exec .reverse { s with pending := [], start := a, len := n } ∧
    finish { s with pending := (HostOp.crcFb a n).expand } =
      exec .crc { s with pending := [], sel := 0, start := a, len := n } ∧
    finish { s with pending := (HostOp.crcTb a n).expand } =
      exec .crc { s with pending := [], sel := 1, start := a, len := n }

/-- R98: setad stages its bytes for BUILD and sets ADLEN, and changes nothing else. -/
def Obligations.SetadStagesBytes : Prop :=
  ∀ (s : State) (bs : List Byte), bs.length ≤ 21 →
    ∃ t, finish { s with pending := (HostOp.setad bs).expand } = .next t ∧ t.adBytes = bs ∧
      t = { s with pending := [], ad := t.ad, adlen := BitVec.ofNat 8 bs.length } ∧
      ∀ i : Fin 21, bs.length ≤ i.val → t.ad[i] = s.ad[i]

/-- R96: a wr line makes the byte write, and an rd or expect line the byte read, of its location, at the literal
address or at the address R22 gives the register's name. That the returned byte is kept in a list is the model's (log
entry 3), and so is that an expect line's check is outside the run (log entry 13). -/
def Obligations.AccessLinesReachTheirLocations : Prop :=
  (∀ (s : State) (a v : Byte),
    finish { s with pending := (HostOp.wr (.literal a) v).expand } = step { s with pending := [.wr a v] } ∧
    finish { s with pending := (HostOp.rd (.literal a)).expand } =
      .next { s with pending := [], reads := s.reads ++ [s.memRead a] } ∧
    (HostOp.expect (.literal a) v).expand = (HostOp.rd (.literal a)).expand) ∧
  (∀ (l : Loc) (v : Byte),
    (HostOp.wr (.named l) v).expand = (HostOp.wr (.literal (LocRef.named l).addr) v).expand ∧
    (HostOp.rd (.named l)).expand = (HostOp.rd (.literal (LocRef.named l).addr)).expand ∧
    (HostOp.expect (.named l) v).expand = (HostOp.rd (.named l)).expand) ∧
  [Loc.cmd, .status, .chidx, .sel, .start, .len, .adlen, .flen, .crc0, .crc1, .crc2, .wlfsr, .namelen, .mfrlen].map
    (fun l => (LocRef.named l).addr.toNat) = List.range 14 ∧
  (∀ i : Fin 6, (LocRef.named (.mac i)).addr.toNat = 0x10 + i ∧ (LocRef.named (.name i)).addr.toNat = 0x16 + i) ∧
  (∀ i : Fin 8, (LocRef.named (.mfr i)).addr.toNat = 0x20 + i) ∧
  (∀ i : Fin 21, (LocRef.named (.ad i)).addr.toNat = 0x30 + i) ∧
  ∀ k : Fin 32, (LocRef.named (.fb k)).addr.toNat = 0x60 + k ∧ (LocRef.named (.tb k)).addr.toNat = 0x80 + k
end

