-- ==== Sys2Proof/Laws/Memory.lean ====
section
/-! SUPPORT. The laws of the buffers' memory: read after write, the canonical form, and that two canonical memories
that read alike are equal. -/

namespace Sys2Proof.Machine

/-! ## One byte -/

@[simp] theorem Memory.read_nil (a : Nat) : Memory.read [] a = 0x00 := rfl

theorem Memory.read_cons (b : Nat) (w : Byte) (m : Memory) (a : Nat) :
    Memory.read ((b, w) :: m) a = if a = b then w else Memory.read m a := rfl

/-- An address that no cell has reads as the unlisted byte. -/
theorem Memory.read_eq_zero_of_unlisted {m : Memory} {a : Nat} (h : ∀ c ∈ m, c.1 ≠ a) : m.read a = 0x00 := by
  induction m with
  | nil => rfl
  | cons c m ih =>
    obtain ⟨b, w⟩ := c
    have hb : b ≠ a := h (b, w) (by simp)
    rw [Memory.read_cons, if_neg (Ne.symm hb)]
    exact ih fun c hc => h c (by simp [hc])

theorem Memory.read_erase (m : Memory) (a b : Nat) :
    (Memory.erase m a).read b = if b = a then 0x00 else m.read b := by
  induction m with
  | nil => simp [Memory.erase]
  | cons c m ih =>
    obtain ⟨d, w⟩ := c
    have ih' : Memory.read (List.filter (fun c => c.1 != a) m) b = if b = a then 0x00 else Memory.read m b := ih
    by_cases hda : d = a
    · subst hda
      by_cases hb : b = d <;> simp_all [Memory.erase, Memory.read_cons]
    · by_cases hb : b = d
      · subst hb; simp [Memory.erase, Memory.read_cons, hda]
      · simp [Memory.erase, Memory.read_cons, hda, hb, ih']

theorem Memory.read_insert {m : Memory} {a : Nat} (v : Byte) (b : Nat) (h : ∀ c ∈ m, c.1 ≠ a) :
    (Memory.insert m a v).read b = if b = a then v else m.read b := by
  induction m with
  | nil => simp [Memory.insert, Memory.read_cons]
  | cons c m ih =>
    obtain ⟨d, w⟩ := c
    have hd : d ≠ a := h (d, w) (by simp)
    have ih := ih fun c hc => h c (by simp [hc])
    by_cases hlt : a < d
    · simp [Memory.insert, hlt, Memory.read_cons]
    · by_cases hb : b = d
      · subst hb; simp [Memory.insert, hlt, Memory.read_cons, hd]
      · simp [Memory.insert, hlt, Memory.read_cons, hb, ih]

theorem Memory.ne_of_mem_erase {m : Memory} {a : Nat} : ∀ c ∈ Memory.erase m a, c.1 ≠ a := by
  simp [Memory.erase]

/-- Read after write, for every memory. -/
theorem Memory.read_write (m : Memory) (a b : Nat) (v : Byte) :
    (Memory.write m a v).read b = if b = a then v else m.read b := by
  unfold Memory.write
  split
  · next h => rw [Memory.read_erase, h]
  · rw [Memory.read_insert v b Memory.ne_of_mem_erase, Memory.read_erase]; split <;> rfl

@[simp] theorem Memory.read_write_same (m : Memory) (a : Nat) (v : Byte) : (Memory.write m a v).read a = v := by
  simp [Memory.read_write]

theorem Memory.read_write_other (m : Memory) {a b : Nat} (v : Byte) (h : b ≠ a) :
    (Memory.write m a v).read b = m.read b := by
  simp [Memory.read_write, h]

/-! ## Byte sequences -/

@[simp] theorem Memory.length_readBytes (m : Memory) (a n : Nat) : (m.readBytes a n).length = n := by
  induction n generalizing a with
  | zero => rfl
  | succ n ih => simp [Memory.readBytes, ih]

@[simp] theorem Memory.getElem_readBytes (m : Memory) (a n i : Nat) (h : i < (m.readBytes a n).length) :
    (m.readBytes a n)[i] = m.read (a + i) := by
  induction n generalizing a i with
  | zero => simp at h
  | succ n ih =>
    cases i with
    | zero => simp [Memory.readBytes]
    | succ i => simp only [Memory.readBytes, List.getElem_cons_succ, ih]; congr 1; omega

/-- Two memories that read alike on a range give the same bytes. -/
theorem Memory.readBytes_congr {m m' : Memory} {a a' n : Nat} (h : ∀ i, i < n → m.read (a + i) = m'.read (a' + i)) :
    m.readBytes a n = m'.readBytes a' n := by
  apply List.ext_getElem (by simp)
  intro i h₁ _
  simpa using h i (by simpa using h₁)

/-- Read after a byte sequence is written. -/
theorem Memory.read_writeBytes (m : Memory) (a : Nat) (vs : List Byte) (b : Nat) :
    (m.writeBytes a vs).read b = if h : a ≤ b ∧ b < a + vs.length then vs[b - a] else m.read b := by
  induction vs generalizing m a with
  | nil => simp [Memory.writeBytes]
  | cons v vs ih =>
    rw [Memory.writeBytes, ih]
    by_cases hb : b = a
    · subst hb; simp
    · by_cases h : a + 1 ≤ b ∧ b < a + 1 + vs.length
      · have h' : a ≤ b ∧ b < a + (v :: vs).length := by simp; omega
        rw [dif_pos h, dif_pos h']
        have hs : b - a = (b - (a + 1)) + 1 := by omega
        simp [hs]
      · have h' : ¬ (a ≤ b ∧ b < a + (v :: vs).length) := by simp; omega
        rw [dif_neg h, dif_neg h', Memory.read_write_other _ _ hb]

theorem Memory.read_writeBytes_outside (m : Memory) {a b : Nat} {vs : List Byte} (h : b < a ∨ a + vs.length ≤ b) :
    (m.writeBytes a vs).read b = m.read b := by
  rw [Memory.read_writeBytes, dif_neg (by omega)]

/-- The bytes just written read back. -/
theorem Memory.readBytes_writeBytes (m : Memory) (a : Nat) (vs : List Byte) :
    (m.writeBytes a vs).readBytes a vs.length = vs := by
  apply List.ext_getElem (by simp)
  intro i h₁ h₂
  simp [Memory.read_writeBytes, h₂]

/-! ## The canonical form -/

/-- The canonical form in words: no cell holds the unlisted byte, and the addresses strictly rise. -/
theorem Memory.wf_iff (m : Memory) :
    m.wf = true ↔ (∀ c ∈ m, c.2 ≠ 0x00) ∧ List.Pairwise (fun c d => c.1 < d.1) m := by
  induction m with
  | nil => simp [Memory.wf]
  | cons c m ih =>
    obtain ⟨a, v⟩ := c
    cases m with
    | nil => simp [Memory.wf]
    | cons d m =>
      obtain ⟨b, w⟩ := d
      simp only [Memory.wf, Bool.and_eq_true, bne_iff_ne, ne_eq, decide_eq_true_eq, ih, List.mem_cons,
        List.pairwise_cons, forall_eq_or_imp]
      constructor
      · rintro ⟨⟨hv, hab⟩, ⟨hw, hm⟩, hb, hp⟩
        exact ⟨⟨hv, hw, hm⟩, ⟨hab, fun c hc => Nat.lt_trans hab (hb c hc)⟩, hb, hp⟩
      · rintro ⟨⟨hv, hw, hm⟩, ⟨hab, -⟩, hb, hp⟩
        exact ⟨⟨hv, hab⟩, ⟨hw, hm⟩, hb, hp⟩

theorem Memory.mem_insert {m : Memory} {a : Nat} {v : Byte} {c : Host.Cell} :
    c ∈ Memory.insert m a v ↔ c = (a, v) ∨ c ∈ m := by
  induction m with
  | nil => simp [Memory.insert]
  | cons d m ih =>
    obtain ⟨b, w⟩ := d
    by_cases h : a < b
    · simp [Memory.insert, h]
    · simp only [Memory.insert, h, if_false, List.mem_cons, ih]; tauto

theorem Memory.pairwise_insert {m : Memory} {a : Nat} {v : Byte} (h : ∀ c ∈ m, c.1 ≠ a)
    (hp : List.Pairwise (fun c d => c.1 < d.1) m) :
    List.Pairwise (fun c d : Host.Cell => c.1 < d.1) (Memory.insert m a v) := by
  induction m with
  | nil => simp [Memory.insert]
  | cons d m ih =>
    obtain ⟨b, w⟩ := d
    have hb : b ≠ a := h (b, w) (by simp)
    rw [List.pairwise_cons] at hp
    by_cases hab : a < b
    · rw [Memory.insert, if_pos hab, List.pairwise_cons, List.pairwise_cons]
      simp only [List.mem_cons, forall_eq_or_imp]
      exact ⟨⟨hab, fun c hc => Nat.lt_trans hab (hp.1 c hc)⟩, hp⟩
    · simp only [Memory.insert, hab, if_false, List.pairwise_cons, Memory.mem_insert, forall_eq_or_imp]
      exact ⟨⟨by omega, hp.1⟩, ih (fun c hc => h c (by simp [hc])) hp.2⟩

/-- Writing a byte keeps the canonical form. -/
theorem Memory.wf_write {m : Memory} (a : Nat) (v : Byte) (h : m.wf = true) : (Memory.write m a v).wf = true := by
  rw [Memory.wf_iff] at h ⊢
  have he : (∀ c ∈ Memory.erase m a, c.2 ≠ 0x00) ∧ List.Pairwise (fun c d => c.1 < d.1) (Memory.erase m a) :=
    ⟨fun c hc => h.1 c (List.mem_of_mem_filter hc), h.2.filter _⟩
  unfold Memory.write
  split
  · exact he
  · next hv =>
    refine ⟨fun c hc => ?_, Memory.pairwise_insert Memory.ne_of_mem_erase he.2⟩
    rcases Memory.mem_insert.mp hc with rfl | hc
    · exact hv
    · exact he.1 c hc

/-- Writing a byte sequence keeps the canonical form. -/
theorem Memory.wf_writeBytes {m : Memory} (a : Nat) (vs : List Byte) (h : m.wf = true) :
    (m.writeBytes a vs).wf = true := by
  induction vs generalizing m a with
  | nil => exact h
  | cons v vs ih => exact ih (a + 1) (Memory.wf_write a v h)

theorem Memory.inBuffers_iff (m : Memory) : m.inBuffers = true ↔ ∀ c ∈ m, 0x60 ≤ c.1 ∧ c.1 < 0xA0 := by
  simp [Memory.inBuffers]

/-- Writing a buffer byte lists buffer addresses only. -/
theorem Memory.inBuffers_write {m : Memory} {a : Nat} (v : Byte) (ha : 0x60 ≤ a ∧ a < 0xA0) (h : m.inBuffers = true) :
    (Memory.write m a v).inBuffers = true := by
  rw [Memory.inBuffers_iff] at h ⊢
  intro c hc
  unfold Memory.write at hc
  split at hc
  · exact h c (List.mem_of_mem_filter hc)
  · rcases Memory.mem_insert.mp hc with rfl | hc
    · exact ha
    · exact h c (List.mem_of_mem_filter hc)

/-- Writing bytes inside the buffers lists buffer addresses only. -/
theorem Memory.inBuffers_writeBytes {m : Memory} {a : Nat} {vs : List Byte} (ha : 0x60 ≤ a)
    (hn : a + vs.length ≤ 0xA0) (h : m.inBuffers = true) : (m.writeBytes a vs).inBuffers = true := by
  induction vs generalizing m a with
  | nil => exact h
  | cons v vs ih =>
    have hn : a + (vs.length + 1) ≤ 0xA0 := hn
    exact ih (by omega) (by omega) (Memory.inBuffers_write v ⟨ha, by omega⟩ h)

/-- An address the head's address is above is unlisted. -/
theorem Memory.read_of_lt_head {m : Memory} {a : Nat} (h : ∀ c ∈ m, a < c.1) : m.read a = 0x00 :=
  Memory.read_eq_zero_of_unlisted fun c hc => Nat.ne_of_gt (h c hc)

/-- Two canonical memories that read alike everywhere are the same list. -/
theorem Memory.ext_of_read {m m' : Memory} (h : m.wf = true) (h' : m'.wf = true)
    (hr : ∀ a, m.read a = m'.read a) : m = m' := by
  rw [Memory.wf_iff] at h h'
  induction m generalizing m' with
  | nil =>
    cases m' with
    | nil => rfl
    | cons c m' =>
      have := hr c.1
      rw [show (c :: m' : Memory) = (c.1, c.2) :: m' from rfl, Memory.read_cons] at this
      simp at this
      exact absurd this.symm (h'.1 c (by simp))
  | cons c m ih =>
    obtain ⟨a, v⟩ := c
    have hm := List.pairwise_cons.mp h.2
    cases m' with
    | nil =>
      have := hr a
      simp [Memory.read_cons] at this
      exact absurd this (h.1 (a, v) (by simp))
    | cons c' m' =>
      obtain ⟨b, w⟩ := c'
      have hm' := List.pairwise_cons.mp h'.2
      have hab : a = b := by
        rcases Nat.lt_trichotomy a b with hlt | heq | hgt
        · have hz : Memory.read ((b, w) :: m') a = 0x00 := Memory.read_of_lt_head (by
            intro c hc
            rcases List.mem_cons.mp hc with rfl | hc
            · exact hlt
            · exact Nat.lt_trans hlt (hm'.1 c hc))
          have := hr a
          rw [hz, Memory.read_cons, if_pos rfl] at this
          exact absurd this (h.1 (a, v) (by simp))
        · exact heq
        · have hz : Memory.read ((a, v) :: m) b = 0x00 := Memory.read_of_lt_head (by
            intro c hc
            rcases List.mem_cons.mp hc with rfl | hc
            · exact hgt
            · exact Nat.lt_trans hgt (hm.1 c hc))
          have := hr b
          rw [hz, Memory.read_cons, if_pos rfl] at this
          exact absurd this.symm (h'.1 (b, w) (by simp))
      subst hab
      have hvw : v = w := by simpa [Memory.read_cons] using hr a
      subst hvw
      congr 1
      refine ih ⟨fun c hc => h.1 c (List.mem_cons_of_mem _ hc), hm.2⟩
        ⟨fun c hc => h'.1 c (List.mem_cons_of_mem _ hc), hm'.2⟩ fun b => ?_
      by_cases hb : b = a
      · subst hb
        rw [Memory.read_of_lt_head hm.1, Memory.read_of_lt_head hm'.1]
      · simpa [Memory.read_cons, hb] using hr b

end Sys2Proof.Machine
end

