-- ==== Sys2Proof/Laws/State.lean ====
section
/-! SUPPORT. One lemma per field of State for each named update, so that no proof unfolds a record update. -/

namespace Sys2Proof.Machine

/-! ## State.setFrame -/

@[simp] theorem State.setFrame_fstate (f : FState) (n : Byte) (m : Memory) (s : State) : (s.setFrame f n m).fstate = f := rfl
@[simp] theorem State.setFrame_err (f : FState) (n : Byte) (m : Memory) (s : State) : (s.setFrame f n m).err = s.err := rfl
@[simp] theorem State.setFrame_errSeen (f : FState) (n : Byte) (m : Memory) (s : State) : (s.setFrame f n m).errSeen = s.errSeen := rfl
@[simp] theorem State.setFrame_chidx (f : FState) (n : Byte) (m : Memory) (s : State) : (s.setFrame f n m).chidx = s.chidx := rfl
@[simp] theorem State.setFrame_sel (f : FState) (n : Byte) (m : Memory) (s : State) : (s.setFrame f n m).sel = s.sel := rfl
@[simp] theorem State.setFrame_start (f : FState) (n : Byte) (m : Memory) (s : State) : (s.setFrame f n m).start = s.start := rfl
@[simp] theorem State.setFrame_len (f : FState) (n : Byte) (m : Memory) (s : State) : (s.setFrame f n m).len = s.len := rfl
@[simp] theorem State.setFrame_adlen (f : FState) (n : Byte) (m : Memory) (s : State) : (s.setFrame f n m).adlen = s.adlen := rfl
@[simp] theorem State.setFrame_flen (f : FState) (n : Byte) (m : Memory) (s : State) : (s.setFrame f n m).flen = n := rfl
@[simp] theorem State.setFrame_crc (f : FState) (n : Byte) (m : Memory) (s : State) : (s.setFrame f n m).crc = s.crc := rfl
@[simp] theorem State.setFrame_wlfsr (f : FState) (n : Byte) (m : Memory) (s : State) : (s.setFrame f n m).wlfsr = s.wlfsr := rfl
@[simp] theorem State.setFrame_namelen (f : FState) (n : Byte) (m : Memory) (s : State) : (s.setFrame f n m).namelen = s.namelen := rfl
@[simp] theorem State.setFrame_mfrlen (f : FState) (n : Byte) (m : Memory) (s : State) : (s.setFrame f n m).mfrlen = s.mfrlen := rfl
@[simp] theorem State.setFrame_mac (f : FState) (n : Byte) (m : Memory) (s : State) : (s.setFrame f n m).mac = s.mac := rfl
@[simp] theorem State.setFrame_name (f : FState) (n : Byte) (m : Memory) (s : State) : (s.setFrame f n m).name = s.name := rfl
@[simp] theorem State.setFrame_mfr (f : FState) (n : Byte) (m : Memory) (s : State) : (s.setFrame f n m).mfr = s.mfr := rfl
@[simp] theorem State.setFrame_ad (f : FState) (n : Byte) (m : Memory) (s : State) : (s.setFrame f n m).ad = s.ad := rfl
@[simp] theorem State.setFrame_mem (f : FState) (n : Byte) (m : Memory) (s : State) : (s.setFrame f n m).mem = m := rfl
@[simp] theorem State.setFrame_pending (f : FState) (n : Byte) (m : Memory) (s : State) : (s.setFrame f n m).pending = s.pending := rfl
@[simp] theorem State.setFrame_reads (f : FState) (n : Byte) (m : Memory) (s : State) : (s.setFrame f n m).reads = s.reads := rfl

/-! ## State.setCrc -/

@[simp] theorem State.setCrc_fstate (c : CrcReg) (s : State) : (s.setCrc c).fstate = s.fstate := rfl
@[simp] theorem State.setCrc_err (c : CrcReg) (s : State) : (s.setCrc c).err = s.err := rfl
@[simp] theorem State.setCrc_errSeen (c : CrcReg) (s : State) : (s.setCrc c).errSeen = s.errSeen := rfl
@[simp] theorem State.setCrc_chidx (c : CrcReg) (s : State) : (s.setCrc c).chidx = s.chidx := rfl
@[simp] theorem State.setCrc_sel (c : CrcReg) (s : State) : (s.setCrc c).sel = s.sel := rfl
@[simp] theorem State.setCrc_start (c : CrcReg) (s : State) : (s.setCrc c).start = s.start := rfl
@[simp] theorem State.setCrc_len (c : CrcReg) (s : State) : (s.setCrc c).len = s.len := rfl
@[simp] theorem State.setCrc_adlen (c : CrcReg) (s : State) : (s.setCrc c).adlen = s.adlen := rfl
@[simp] theorem State.setCrc_flen (c : CrcReg) (s : State) : (s.setCrc c).flen = s.flen := rfl
@[simp] theorem State.setCrc_crc (c : CrcReg) (s : State) : (s.setCrc c).crc = c := rfl
@[simp] theorem State.setCrc_wlfsr (c : CrcReg) (s : State) : (s.setCrc c).wlfsr = s.wlfsr := rfl
@[simp] theorem State.setCrc_namelen (c : CrcReg) (s : State) : (s.setCrc c).namelen = s.namelen := rfl
@[simp] theorem State.setCrc_mfrlen (c : CrcReg) (s : State) : (s.setCrc c).mfrlen = s.mfrlen := rfl
@[simp] theorem State.setCrc_mac (c : CrcReg) (s : State) : (s.setCrc c).mac = s.mac := rfl
@[simp] theorem State.setCrc_name (c : CrcReg) (s : State) : (s.setCrc c).name = s.name := rfl
@[simp] theorem State.setCrc_mfr (c : CrcReg) (s : State) : (s.setCrc c).mfr = s.mfr := rfl
@[simp] theorem State.setCrc_ad (c : CrcReg) (s : State) : (s.setCrc c).ad = s.ad := rfl
@[simp] theorem State.setCrc_mem (c : CrcReg) (s : State) : (s.setCrc c).mem = s.mem := rfl
@[simp] theorem State.setCrc_pending (c : CrcReg) (s : State) : (s.setCrc c).pending = s.pending := rfl
@[simp] theorem State.setCrc_reads (c : CrcReg) (s : State) : (s.setCrc c).reads = s.reads := rfl

/-! ## State.setWlfsr -/

@[simp] theorem State.setWlfsr_fstate (l : BitVec 7) (s : State) : (s.setWlfsr l).fstate = s.fstate := rfl
@[simp] theorem State.setWlfsr_err (l : BitVec 7) (s : State) : (s.setWlfsr l).err = s.err := rfl
@[simp] theorem State.setWlfsr_errSeen (l : BitVec 7) (s : State) : (s.setWlfsr l).errSeen = s.errSeen := rfl
@[simp] theorem State.setWlfsr_chidx (l : BitVec 7) (s : State) : (s.setWlfsr l).chidx = s.chidx := rfl
@[simp] theorem State.setWlfsr_sel (l : BitVec 7) (s : State) : (s.setWlfsr l).sel = s.sel := rfl
@[simp] theorem State.setWlfsr_start (l : BitVec 7) (s : State) : (s.setWlfsr l).start = s.start := rfl
@[simp] theorem State.setWlfsr_len (l : BitVec 7) (s : State) : (s.setWlfsr l).len = s.len := rfl
@[simp] theorem State.setWlfsr_adlen (l : BitVec 7) (s : State) : (s.setWlfsr l).adlen = s.adlen := rfl
@[simp] theorem State.setWlfsr_flen (l : BitVec 7) (s : State) : (s.setWlfsr l).flen = s.flen := rfl
@[simp] theorem State.setWlfsr_crc (l : BitVec 7) (s : State) : (s.setWlfsr l).crc = s.crc := rfl
@[simp] theorem State.setWlfsr_wlfsr (l : BitVec 7) (s : State) : (s.setWlfsr l).wlfsr = l := rfl
@[simp] theorem State.setWlfsr_namelen (l : BitVec 7) (s : State) : (s.setWlfsr l).namelen = s.namelen := rfl
@[simp] theorem State.setWlfsr_mfrlen (l : BitVec 7) (s : State) : (s.setWlfsr l).mfrlen = s.mfrlen := rfl
@[simp] theorem State.setWlfsr_mac (l : BitVec 7) (s : State) : (s.setWlfsr l).mac = s.mac := rfl
@[simp] theorem State.setWlfsr_name (l : BitVec 7) (s : State) : (s.setWlfsr l).name = s.name := rfl
@[simp] theorem State.setWlfsr_mfr (l : BitVec 7) (s : State) : (s.setWlfsr l).mfr = s.mfr := rfl
@[simp] theorem State.setWlfsr_ad (l : BitVec 7) (s : State) : (s.setWlfsr l).ad = s.ad := rfl
@[simp] theorem State.setWlfsr_mem (l : BitVec 7) (s : State) : (s.setWlfsr l).mem = s.mem := rfl
@[simp] theorem State.setWlfsr_pending (l : BitVec 7) (s : State) : (s.setWlfsr l).pending = s.pending := rfl
@[simp] theorem State.setWlfsr_reads (l : BitVec 7) (s : State) : (s.setWlfsr l).reads = s.reads := rfl

/-! ## State.setMem -/

@[simp] theorem State.setMem_fstate (m : Memory) (s : State) : (s.setMem m).fstate = s.fstate := rfl
@[simp] theorem State.setMem_err (m : Memory) (s : State) : (s.setMem m).err = s.err := rfl
@[simp] theorem State.setMem_errSeen (m : Memory) (s : State) : (s.setMem m).errSeen = s.errSeen := rfl
@[simp] theorem State.setMem_chidx (m : Memory) (s : State) : (s.setMem m).chidx = s.chidx := rfl
@[simp] theorem State.setMem_sel (m : Memory) (s : State) : (s.setMem m).sel = s.sel := rfl
@[simp] theorem State.setMem_start (m : Memory) (s : State) : (s.setMem m).start = s.start := rfl
@[simp] theorem State.setMem_len (m : Memory) (s : State) : (s.setMem m).len = s.len := rfl
@[simp] theorem State.setMem_adlen (m : Memory) (s : State) : (s.setMem m).adlen = s.adlen := rfl
@[simp] theorem State.setMem_flen (m : Memory) (s : State) : (s.setMem m).flen = s.flen := rfl
@[simp] theorem State.setMem_crc (m : Memory) (s : State) : (s.setMem m).crc = s.crc := rfl
@[simp] theorem State.setMem_wlfsr (m : Memory) (s : State) : (s.setMem m).wlfsr = s.wlfsr := rfl
@[simp] theorem State.setMem_namelen (m : Memory) (s : State) : (s.setMem m).namelen = s.namelen := rfl
@[simp] theorem State.setMem_mfrlen (m : Memory) (s : State) : (s.setMem m).mfrlen = s.mfrlen := rfl
@[simp] theorem State.setMem_mac (m : Memory) (s : State) : (s.setMem m).mac = s.mac := rfl
@[simp] theorem State.setMem_name (m : Memory) (s : State) : (s.setMem m).name = s.name := rfl
@[simp] theorem State.setMem_mfr (m : Memory) (s : State) : (s.setMem m).mfr = s.mfr := rfl
@[simp] theorem State.setMem_ad (m : Memory) (s : State) : (s.setMem m).ad = s.ad := rfl
@[simp] theorem State.setMem_mem (m : Memory) (s : State) : (s.setMem m).mem = m := rfl
@[simp] theorem State.setMem_pending (m : Memory) (s : State) : (s.setMem m).pending = s.pending := rfl
@[simp] theorem State.setMem_reads (m : Memory) (s : State) : (s.setMem m).reads = s.reads := rfl

/-! ## State.setPending -/

@[simp] theorem State.setPending_fstate (es : List Event) (s : State) : (s.setPending es).fstate = s.fstate := rfl
@[simp] theorem State.setPending_err (es : List Event) (s : State) : (s.setPending es).err = s.err := rfl
@[simp] theorem State.setPending_errSeen (es : List Event) (s : State) : (s.setPending es).errSeen = s.errSeen := rfl
@[simp] theorem State.setPending_chidx (es : List Event) (s : State) : (s.setPending es).chidx = s.chidx := rfl
@[simp] theorem State.setPending_sel (es : List Event) (s : State) : (s.setPending es).sel = s.sel := rfl
@[simp] theorem State.setPending_start (es : List Event) (s : State) : (s.setPending es).start = s.start := rfl
@[simp] theorem State.setPending_len (es : List Event) (s : State) : (s.setPending es).len = s.len := rfl
@[simp] theorem State.setPending_adlen (es : List Event) (s : State) : (s.setPending es).adlen = s.adlen := rfl
@[simp] theorem State.setPending_flen (es : List Event) (s : State) : (s.setPending es).flen = s.flen := rfl
@[simp] theorem State.setPending_crc (es : List Event) (s : State) : (s.setPending es).crc = s.crc := rfl
@[simp] theorem State.setPending_wlfsr (es : List Event) (s : State) : (s.setPending es).wlfsr = s.wlfsr := rfl
@[simp] theorem State.setPending_namelen (es : List Event) (s : State) : (s.setPending es).namelen = s.namelen := rfl
@[simp] theorem State.setPending_mfrlen (es : List Event) (s : State) : (s.setPending es).mfrlen = s.mfrlen := rfl
@[simp] theorem State.setPending_mac (es : List Event) (s : State) : (s.setPending es).mac = s.mac := rfl
@[simp] theorem State.setPending_name (es : List Event) (s : State) : (s.setPending es).name = s.name := rfl
@[simp] theorem State.setPending_mfr (es : List Event) (s : State) : (s.setPending es).mfr = s.mfr := rfl
@[simp] theorem State.setPending_ad (es : List Event) (s : State) : (s.setPending es).ad = s.ad := rfl
@[simp] theorem State.setPending_mem (es : List Event) (s : State) : (s.setPending es).mem = s.mem := rfl
@[simp] theorem State.setPending_pending (es : List Event) (s : State) : (s.setPending es).pending = es := rfl
@[simp] theorem State.setPending_reads (es : List Event) (s : State) : (s.setPending es).reads = s.reads := rfl

/-! ## State.logRead -/

@[simp] theorem State.logRead_fstate (v : Byte) (s : State) : (s.logRead v).fstate = s.fstate := rfl
@[simp] theorem State.logRead_err (v : Byte) (s : State) : (s.logRead v).err = s.err := rfl
@[simp] theorem State.logRead_errSeen (v : Byte) (s : State) : (s.logRead v).errSeen = s.errSeen := rfl
@[simp] theorem State.logRead_chidx (v : Byte) (s : State) : (s.logRead v).chidx = s.chidx := rfl
@[simp] theorem State.logRead_sel (v : Byte) (s : State) : (s.logRead v).sel = s.sel := rfl
@[simp] theorem State.logRead_start (v : Byte) (s : State) : (s.logRead v).start = s.start := rfl
@[simp] theorem State.logRead_len (v : Byte) (s : State) : (s.logRead v).len = s.len := rfl
@[simp] theorem State.logRead_adlen (v : Byte) (s : State) : (s.logRead v).adlen = s.adlen := rfl
@[simp] theorem State.logRead_flen (v : Byte) (s : State) : (s.logRead v).flen = s.flen := rfl
@[simp] theorem State.logRead_crc (v : Byte) (s : State) : (s.logRead v).crc = s.crc := rfl
@[simp] theorem State.logRead_wlfsr (v : Byte) (s : State) : (s.logRead v).wlfsr = s.wlfsr := rfl
@[simp] theorem State.logRead_namelen (v : Byte) (s : State) : (s.logRead v).namelen = s.namelen := rfl
@[simp] theorem State.logRead_mfrlen (v : Byte) (s : State) : (s.logRead v).mfrlen = s.mfrlen := rfl
@[simp] theorem State.logRead_mac (v : Byte) (s : State) : (s.logRead v).mac = s.mac := rfl
@[simp] theorem State.logRead_name (v : Byte) (s : State) : (s.logRead v).name = s.name := rfl
@[simp] theorem State.logRead_mfr (v : Byte) (s : State) : (s.logRead v).mfr = s.mfr := rfl
@[simp] theorem State.logRead_ad (v : Byte) (s : State) : (s.logRead v).ad = s.ad := rfl
@[simp] theorem State.logRead_mem (v : Byte) (s : State) : (s.logRead v).mem = s.mem := rfl
@[simp] theorem State.logRead_pending (v : Byte) (s : State) : (s.logRead v).pending = s.pending := rfl
@[simp] theorem State.logRead_reads (v : Byte) (s : State) : (s.logRead v).reads = s.reads ++ [v] := rfl

/-! ## State.succeeded -/

@[simp] theorem State.succeeded_fstate (s : State) : (s.succeeded).fstate = s.fstate := rfl
@[simp] theorem State.succeeded_err (s : State) : (s.succeeded).err = .ok := rfl
@[simp] theorem State.succeeded_errSeen (s : State) : (s.succeeded).errSeen = s.errSeen := rfl
@[simp] theorem State.succeeded_chidx (s : State) : (s.succeeded).chidx = s.chidx := rfl
@[simp] theorem State.succeeded_sel (s : State) : (s.succeeded).sel = s.sel := rfl
@[simp] theorem State.succeeded_start (s : State) : (s.succeeded).start = s.start := rfl
@[simp] theorem State.succeeded_len (s : State) : (s.succeeded).len = s.len := rfl
@[simp] theorem State.succeeded_adlen (s : State) : (s.succeeded).adlen = s.adlen := rfl
@[simp] theorem State.succeeded_flen (s : State) : (s.succeeded).flen = s.flen := rfl
@[simp] theorem State.succeeded_crc (s : State) : (s.succeeded).crc = s.crc := rfl
@[simp] theorem State.succeeded_wlfsr (s : State) : (s.succeeded).wlfsr = s.wlfsr := rfl
@[simp] theorem State.succeeded_namelen (s : State) : (s.succeeded).namelen = s.namelen := rfl
@[simp] theorem State.succeeded_mfrlen (s : State) : (s.succeeded).mfrlen = s.mfrlen := rfl
@[simp] theorem State.succeeded_mac (s : State) : (s.succeeded).mac = s.mac := rfl
@[simp] theorem State.succeeded_name (s : State) : (s.succeeded).name = s.name := rfl
@[simp] theorem State.succeeded_mfr (s : State) : (s.succeeded).mfr = s.mfr := rfl
@[simp] theorem State.succeeded_ad (s : State) : (s.succeeded).ad = s.ad := rfl
@[simp] theorem State.succeeded_mem (s : State) : (s.succeeded).mem = s.mem := rfl
@[simp] theorem State.succeeded_pending (s : State) : (s.succeeded).pending = s.pending := rfl
@[simp] theorem State.succeeded_reads (s : State) : (s.succeeded).reads = s.reads := rfl

/-! ## State.failed -/

@[simp] theorem State.failed_fstate (code : ErrCode) (s : State) : (s.failed code).fstate = s.fstate := rfl
@[simp] theorem State.failed_err (code : ErrCode) (s : State) : (s.failed code).err = code := rfl
@[simp] theorem State.failed_errSeen (code : ErrCode) (s : State) : (s.failed code).errSeen = true := rfl
@[simp] theorem State.failed_chidx (code : ErrCode) (s : State) : (s.failed code).chidx = s.chidx := rfl
@[simp] theorem State.failed_sel (code : ErrCode) (s : State) : (s.failed code).sel = s.sel := rfl
@[simp] theorem State.failed_start (code : ErrCode) (s : State) : (s.failed code).start = s.start := rfl
@[simp] theorem State.failed_len (code : ErrCode) (s : State) : (s.failed code).len = s.len := rfl
@[simp] theorem State.failed_adlen (code : ErrCode) (s : State) : (s.failed code).adlen = s.adlen := rfl
@[simp] theorem State.failed_flen (code : ErrCode) (s : State) : (s.failed code).flen = s.flen := rfl
@[simp] theorem State.failed_crc (code : ErrCode) (s : State) : (s.failed code).crc = s.crc := rfl
@[simp] theorem State.failed_wlfsr (code : ErrCode) (s : State) : (s.failed code).wlfsr = s.wlfsr := rfl
@[simp] theorem State.failed_namelen (code : ErrCode) (s : State) : (s.failed code).namelen = s.namelen := rfl
@[simp] theorem State.failed_mfrlen (code : ErrCode) (s : State) : (s.failed code).mfrlen = s.mfrlen := rfl
@[simp] theorem State.failed_mac (code : ErrCode) (s : State) : (s.failed code).mac = s.mac := rfl
@[simp] theorem State.failed_name (code : ErrCode) (s : State) : (s.failed code).name = s.name := rfl
@[simp] theorem State.failed_mfr (code : ErrCode) (s : State) : (s.failed code).mfr = s.mfr := rfl
@[simp] theorem State.failed_ad (code : ErrCode) (s : State) : (s.failed code).ad = s.ad := rfl
@[simp] theorem State.failed_mem (code : ErrCode) (s : State) : (s.failed code).mem = s.mem := rfl
@[simp] theorem State.failed_pending (code : ErrCode) (s : State) : (s.failed code).pending = s.pending := rfl
@[simp] theorem State.failed_reads (code : ErrCode) (s : State) : (s.failed code).reads = s.reads := rfl

/-! ## State.resetBlock -/

@[simp] theorem State.resetBlock_fstate (s : State) : s.resetBlock.fstate = State.reset.fstate := rfl
@[simp] theorem State.resetBlock_err (s : State) : s.resetBlock.err = State.reset.err := rfl
@[simp] theorem State.resetBlock_errSeen (s : State) : s.resetBlock.errSeen = State.reset.errSeen := rfl
@[simp] theorem State.resetBlock_chidx (s : State) : s.resetBlock.chidx = State.reset.chidx := rfl
@[simp] theorem State.resetBlock_sel (s : State) : s.resetBlock.sel = State.reset.sel := rfl
@[simp] theorem State.resetBlock_start (s : State) : s.resetBlock.start = State.reset.start := rfl
@[simp] theorem State.resetBlock_len (s : State) : s.resetBlock.len = State.reset.len := rfl
@[simp] theorem State.resetBlock_adlen (s : State) : s.resetBlock.adlen = State.reset.adlen := rfl
@[simp] theorem State.resetBlock_flen (s : State) : s.resetBlock.flen = State.reset.flen := rfl
@[simp] theorem State.resetBlock_crc (s : State) : s.resetBlock.crc = State.reset.crc := rfl
@[simp] theorem State.resetBlock_wlfsr (s : State) : s.resetBlock.wlfsr = State.reset.wlfsr := rfl
@[simp] theorem State.resetBlock_namelen (s : State) : s.resetBlock.namelen = State.reset.namelen := rfl
@[simp] theorem State.resetBlock_mfrlen (s : State) : s.resetBlock.mfrlen = State.reset.mfrlen := rfl
@[simp] theorem State.resetBlock_mac (s : State) : s.resetBlock.mac = State.reset.mac := rfl
@[simp] theorem State.resetBlock_name (s : State) : s.resetBlock.name = State.reset.name := rfl
@[simp] theorem State.resetBlock_mfr (s : State) : s.resetBlock.mfr = State.reset.mfr := rfl
@[simp] theorem State.resetBlock_ad (s : State) : s.resetBlock.ad = State.reset.ad := rfl
@[simp] theorem State.resetBlock_mem (s : State) : s.resetBlock.mem = State.reset.mem := rfl
@[simp] theorem State.resetBlock_pending (s : State) : s.resetBlock.pending = s.pending := rfl
@[simp] theorem State.resetBlock_reads (s : State) : s.resetBlock.reads = s.reads := rfl

end Sys2Proof.Machine
end

