-- ==== Sys2Proof/Laws/Codec.lean ====
section
/-! SUPPORT. Small laws of the four units' functions: lengths, the empty and longer byte sequences, and the whitening
mask's independence from the data. -/

namespace Sys2Proof.Machine

/-! ## CRC-24 -/

@[simp] theorem crc24_nil : crc24 [] = crcInit := rfl

/-- A pass over two pieces is the pass over the first, continued over the second. -/
theorem crc24_append (a b : List Byte) : crc24 (a ++ b) = b.foldl crcByte (crc24 a) := by
  simp [crc24, List.foldl_append]

@[simp] theorem CrcReg.length_bytes (c : CrcReg) : c.bytes.length = 3 := rfl

/-! ## Whitening -/

@[simp] theorem whPass_nil (l : BitVec 7) : whPass l [] = ([], l) := rfl

/-- A pass continues with the LFSR its first byte leaves. -/
@[simp] theorem whPass_cons (l : BitVec 7) (b : Byte) (bs : List Byte) :
    whPass l (b :: bs) = ((b ^^^ (whMask l).2) :: (whPass (whMask l).1 bs).1, (whPass (whMask l).1 bs).2) := rfl

@[simp] theorem length_whPass (l : BitVec 7) (bs : List Byte) : (whPass l bs).1.length = bs.length := by
  induction bs generalizing l with
  | nil => rfl
  | cons b bs ih => simp [ih]

/-- The keystream (00_scope.md R16): the mask bytes of n positions from an LFSR value. -/
def keystream (l : BitVec 7) : Nat → List Byte
  | 0 => []
  | n + 1 => (whMask l).2 :: keystream (whMask l).1 n

/-- The LFSR after n bytes. -/
def lfsrAfter (l : BitVec 7) : Nat → BitVec 7
  | 0 => l
  | n + 1 => lfsrAfter (whMask l).1 n

@[simp] theorem length_keystream (l : BitVec 7) (n : Nat) : (keystream l n).length = n := by
  induction n generalizing l with
  | zero => rfl
  | succ n ih => simp [keystream, ih]

/-- The whitened bytes are the data XOR the keystream, which the data does not change (R171). -/
theorem whPass_bytes (l : BitVec 7) (bs : List Byte) :
    (whPass l bs).1 = List.zipWith (· ^^^ ·) bs (keystream l bs.length) := by
  induction bs generalizing l with
  | nil => rfl
  | cons b bs ih => simp [keystream, ih]

/-- The final LFSR depends on the length of the pass alone. -/
theorem whPass_lfsr (l : BitVec 7) (bs : List Byte) : (whPass l bs).2 = lfsrAfter l bs.length := by
  induction bs generalizing l with
  | nil => rfl
  | cons b bs ih => simp [lfsrAfter, ih]

/-! ## Frame and buffer lengths -/

/-- An assembled frame fills the 32 bytes of FB (R120). -/
theorem length_assemble {mac ad : List Byte} (hm : mac.length = 6) (ha : ad.length ≤ 21) :
    (assemble mac ad).length = 32 := by
  simp [assemble, hm]; omega

/-- The AD length of the standard structures is 7 + a + m (R126). -/
@[simp] theorem length_stdAd (f n : Byte) (name mfr : List Byte) :
    (stdAd f n name mfr).length = 7 + name.length + mfr.length := by
  simp [stdAd]; omega

/-- ENCODE writes all 32 bytes of TB (R202). -/
theorem length_encodedBuffer {w : List Byte} (h : w.length ≤ 32) : (encodedBuffer w).length = 32 := by
  simp [encodedBuffer]; omega

/-! ## Operands -/

@[simp] theorem State.length_macBytes (s : State) : s.macBytes.length = 6 := by simp [State.macBytes]

theorem State.length_adBytes {s : State} (h : s.adlen.toNat ≤ 21) : s.adBytes.length = s.adlen.toNat := by
  simp [State.adBytes]; omega

theorem State.length_nameBytes {s : State} (h : s.namelen.toNat ≤ 6) : s.nameBytes.length = s.namelen.toNat := by
  simp [State.nameBytes]; omega

theorem State.length_mfrBytes {s : State} (h : s.mfrlen.toNat ≤ 8) : s.mfrBytes.length = s.mfrlen.toNat := by
  simp [State.mfrBytes]; omega

@[simp] theorem State.length_tbRange (s : State) : s.tbRange.length = s.len.toNat := by
  simp [State.tbRange, State.tbBytes]

@[simp] theorem State.length_selectedBytes (s : State) : s.selectedBytes.length = s.len.toNat := by
  unfold State.selectedBytes; split <;> simp [State.fbBytes, State.tbBytes]

@[simp] theorem State.length_fbBytes (s : State) (k n : Nat) : (s.fbBytes k n).length = n := by
  simp [State.fbBytes]

@[simp] theorem State.length_tbBytes (s : State) (k n : Nat) : (s.tbBytes k n).length = n := by
  simp [State.tbBytes]

/-- The 9-bit sum of the range rule does not wrap (R66). -/
theorem State.rangeLegal_iff (s : State) : s.rangeLegal = true ↔ s.start.toNat + s.len.toNat ≤ 32 := by
  have h₁ := s.start.isLt
  have h₂ := s.len.isLt
  simp only [State.rangeLegal, decide_eq_true_eq, BitVec.le_def, BitVec.toNat_add, BitVec.toNat_setWidth,
    BitVec.toNat_ofNat]
  omega

theorem State.rangeLegal_eq_false_iff (s : State) : s.rangeLegal = false ↔ 32 < s.start.toNat + s.len.toNat := by
  rw [← Bool.not_eq_true, State.rangeLegal_iff]; omega

theorem State.channel_eq_none_iff (s : State) : s.channel = none ↔ s.chidx = 3 := by
  have h := s.chidx.isLt
  simp only [State.channel, BitVec.toNat_eq]
  split <;> simp <;> omega

theorem State.channel_eq_some_iff (s : State) (c : Fin 3) : s.channel = some c ↔ s.chidx.toNat = c.val := by
  have h := c.isLt
  simp only [State.channel]
  split
  · simp [Fin.ext_iff]
  · simp; omega

end Sys2Proof.Machine
end

