-- ==== Sys2Proof/Laws/Outcome.lean ====
section
/-! SUPPORT. What each shared operation and each meaning can do, said once: when it answers a next state, which one. -/

namespace Sys2Proof.Machine

/-! ## How a command ends -/

@[simp] theorem ok_eq_next {s t : State} : ok s = .next t ↔ s.succeeded = t := by simp [ok]

@[simp] theorem fail_eq_next {c : ErrCode} {s t : State} : fail c s = .next t ↔ s.failed c = t := by simp [fail]

@[simp] theorem ok_ne_fault {s : State} {f : Fault} : ok s ≠ .fault f := by simp [ok]

@[simp] theorem fail_ne_fault {c : ErrCode} {s : State} {f : Fault} : fail c s ≠ .fault f := by simp [fail]

@[simp] theorem ok_ne_refused {s : State} {r : Refusal} : ok s ≠ .refused r := by simp [ok]

@[simp] theorem fail_ne_refused {c : ErrCode} {s : State} {r : Refusal} : fail c s ≠ .refused r := by simp [fail]

/-! ## The meanings -/

theorem execNop_next {s t : State} (h : execNop s = .next t) : t = s.succeeded := (ok_eq_next.mp h).symm

theorem execCopy_next {s t : State} (h : execCopy s = .next t) :
    t = (s.setMem (s.memWithTb 0 (s.fbBytes 0 32))).succeeded := (ok_eq_next.mp h).symm

theorem execSreset_next {s t : State} (h : execSreset s = .next t) : t = s.resetBlock := by
  simpa [execSreset] using h.symm

theorem execIllegal_next {s t : State} (h : execIllegal s = .next t) : t = s.failed .illegal := (fail_eq_next.mp h).symm

theorem execCrc_next {s t : State} (h : execCrc s = .next t) :
    (s.rangeLegal = false ∧ t = s.failed .range) ∨
    (s.rangeLegal = true ∧ t = (s.setCrc (crc24 s.selectedBytes)).succeeded) := by
  unfold execCrc at h
  split at h
  · exact .inr ⟨‹_›, (ok_eq_next.mp h).symm⟩
  · exact .inl ⟨Bool.not_eq_true _ ▸ ‹_›, (fail_eq_next.mp h).symm⟩

theorem execReverse_next {s t : State} (h : execReverse s = .next t) :
    (s.rangeLegal = false ∧ t = s.failed .range) ∨
    (s.rangeLegal = true ∧ t = (s.setMem (s.memWithTb s.start.toNat (s.tbRange.map rev8))).succeeded) := by
  unfold execReverse at h
  split at h
  · exact .inr ⟨‹_›, (ok_eq_next.mp h).symm⟩
  · exact .inl ⟨Bool.not_eq_true _ ▸ ‹_›, (fail_eq_next.mp h).symm⟩

theorem execWhiten_next {s t : State} (h : execWhiten s = .next t) :
    (s.channel = none ∧ t = s.failed .chan) ∨
    (∃ c, s.channel = some c ∧ s.rangeLegal = false ∧ t = s.failed .range) ∨
    (∃ c, s.channel = some c ∧ s.rangeLegal = true ∧
      t = ((s.setMem (s.memWithTb s.start.toNat (whPass (whSeed c) s.tbRange).1)).setWlfsr
        (whPass (whSeed c) s.tbRange).2).succeeded) := by
  unfold execWhiten at h
  split at h
  · exact .inl ⟨‹_›, (fail_eq_next.mp h).symm⟩
  · next c hc =>
    split at h
    · exact .inr (.inr ⟨c, hc, ‹_›, (ok_eq_next.mp h).symm⟩)
    · exact .inr (.inl ⟨c, hc, Bool.not_eq_true _ ▸ ‹_›, (fail_eq_next.mp h).symm⟩)

theorem execBuild_next {s t : State} (h : execBuild s = .next t) :
    ((s.adlen.toNat = 0 ∨ 21 < s.adlen.toNat) ∧ t = s.failed .size) ∨
    ((1 ≤ s.adlen.toNat ∧ s.adlen.toNat ≤ 21) ∧ t = (s.buildFrame s.adBytes).succeeded) := by
  unfold execBuild at h
  split at h
  · next hn => exact .inl ⟨by simpa using hn, (fail_eq_next.mp h).symm⟩
  · next hn => exact .inr ⟨by simp at hn; omega, (ok_eq_next.mp h).symm⟩

theorem execBuildStd_next {s t : State} (h : execBuildStd s = .next t) :
    ((6 < s.namelen.toNat ∨ 8 < s.mfrlen.toNat) ∧ t = s.failed .size) ∨
    ((s.namelen.toNat ≤ 6 ∧ s.mfrlen.toNat ≤ 8) ∧
      t = (s.buildFrame (stdAd Config.flagsAdType Config.nameAdType s.nameBytes s.mfrBytes)).succeeded) := by
  unfold execBuildStd at h
  split at h
  · next hn => exact .inl ⟨by simpa using hn, (fail_eq_next.mp h).symm⟩
  · next hn => exact .inr ⟨by simp at hn; omega, (ok_eq_next.mp h).symm⟩

theorem execAppendCrc_next {s t : State} (h : execAppendCrc s = .next t) :
    (s.fstate ≠ .built ∧ t = s.failed .state) ∨
    (s.fstate = .built ∧ s.flen.toNat ≤ 29 ∧
      t = ((s.setFrame .prepared (Byte.ofLength (s.flen.toNat + 3))
        (s.memWithFb s.flen.toNat (crc24 (s.fbBytes 0 s.flen.toNat)).bytes)).setCrc
          (crc24 (s.fbBytes 0 s.flen.toNat))).succeeded) := by
  unfold execAppendCrc at h
  split at h
  · next hf => exact .inl ⟨by simp [hf], (fail_eq_next.mp h).symm⟩
  · next hf => exact .inl ⟨by simp [hf], (fail_eq_next.mp h).symm⟩
  · next hf =>
    simp only at h
    split at h
    · cases h
    · next hn => exact .inr ⟨hf, by simp at hn; omega, (ok_eq_next.mp h).symm⟩

theorem execEncode_next {s t : State} (h : execEncode s = .next t) :
    (s.fstate ≠ .prepared ∧ t = s.failed .state) ∨
    (s.fstate = .prepared ∧ s.channel = none ∧ t = s.failed .chan) ∨
    (∃ c, s.fstate = .prepared ∧ s.channel = some c ∧ s.flen.toNat ≤ 32 ∧
      t = ((s.setMem (s.memWithTb 0 (encodedBuffer (whPass (whSeed c) (s.fbBytes 0 s.flen.toNat)).1))).setWlfsr
        (whPass (whSeed c) (s.fbBytes 0 s.flen.toNat)).2).succeeded) := by
  unfold execEncode at h
  split at h
  · next hf => exact .inl ⟨by simp [hf], (fail_eq_next.mp h).symm⟩
  · next hf => exact .inl ⟨by simp [hf], (fail_eq_next.mp h).symm⟩
  · next hf =>
    split at h
    · exact .inr (.inl ⟨hf, ‹_›, (fail_eq_next.mp h).symm⟩)
    · next c hc =>
      split at h
      · cases h
      · next hn => exact .inr (.inr ⟨c, hf, hc, by simpa using hn, (ok_eq_next.mp h).symm⟩)

/-! ## The bus -/

/-- What a step can do when it goes on. -/
theorem step_next {s t : State} (h : step s = .next t) :
    (s.pending = [] ∧ t = s) ∨
    ∃ e rest, s.pending = e :: rest ∧ serve e (s.setPending rest) = .next t := by
  unfold step serveNext at h
  split at h
  · next hp => exact .inl ⟨hp, by simpa using h.symm⟩
  · next e rest hp => exact .inr ⟨e, rest, hp, h⟩

/-- The events that go on: the reset input, a byte read and a byte write by the one host. -/
theorem serve_next {e : Event} {s t : State} (h : serve e s = .next t) :
    (e = .reset ∧ t = s.resetBlock) ∨
    (∃ a, e = .rd a ∧ t = s.logRead (s.memRead a)) ∨
    (∃ a v, e = .wr a v ∧ hostWrite a v s = .next t) := by
  unfold serve at h
  split at h
  · exact .inl ⟨rfl, by simpa using h.symm⟩
  · next m op =>
    split at h
    · next hm =>
      subst hm
      unfold serveOp at h
      split at h
      · next a w =>
        split at h
        · next hw => subst hw; exact .inr (.inl ⟨a, rfl, by simpa [hostRead] using h.symm⟩)
        · cases h
      · cases h
      · next a v => exact .inr (.inr ⟨a, v, rfl, h⟩)
      · cases h
    · cases h

/-- A byte written to CMD runs a command or fails with ILLEGAL; elsewhere it is stored. -/
theorem hostWrite_next {a v : Byte} {s t : State} (h : hostWrite a v s = .next t) :
    (∃ i, a = 0x00 ∧ decode v = .ok i ∧ exec i s = .next t) ∨
    (a = 0x00 ∧ decode v = .error .illegalOpcode ∧ t = s.failed .illegal) ∨
    (a ≠ 0x00 ∧ t = s.store v (locate a)) := by
  unfold hostWrite at h
  split at h
  · next ha =>
    unfold issue at h
    split at h
    · next i hi => exact .inl ⟨i, ha, hi, h⟩
    · next hi => exact .inr (.inl ⟨ha, hi, execIllegal_next h⟩)
  · next ha => exact .inr (.inr ⟨ha, by simpa using h.symm⟩)

/-! ## The register map -/

/-- Every address is the address of its location (R22). -/
theorem locate_addr : ∀ a : Byte, (locate a).addr = a := by decide

/-- Only CMD's address locates CMD. -/
theorem locate_eq_cmd_iff : ∀ a : Byte, locate a = .cmd ↔ a = 0x00 := by decide

end Sys2Proof.Machine
end

