-- ==== Sys2Proof/Laws/Bytes.lean ====
section
/-! SUPPORT. The byte-by-byte lists that claims use are the byte ranges that the meanings read, and the mask of one byte
is eight shifts of the whitening LFSR. -/

namespace Sys2Proof.Machine

theorem State.frame_eq_fbBytes (s : State) (k n : Nat) : s.frame k n = s.fbBytes k n := by
  apply List.ext_getElem (by simp [State.frame])
  intro i _ _
  simp [State.frame, State.fbBytes, State.fbByte, Nat.add_assoc]

theorem State.tbInput_eq_tbRange (s : State) : s.tbInput = s.tbRange := by
  apply List.ext_getElem (by simp [State.tbInput])
  intro i _ _
  simp [State.tbInput, State.tbRange, State.tbBytes, State.tbByte, Nat.add_assoc]

theorem Memory.bytesFrom_eq_readBytes (m : Memory) (a n : Nat) : m.bytesFrom a n = m.readBytes a n := by
  apply List.ext_getElem (by simp [Memory.bytesFrom])
  intro i _ _
  simp [Memory.bytesFrom]

theorem State.crcInput_eq_selectedBytes (s : State) : s.crcInput = s.selectedBytes := by
  apply List.ext_getElem (by simp [State.crcInput])
  intro i _ _
  rcases eq_or_ne s.sel 0 with h | h
  · simp [State.selectedBytes, State.crcInput, h, State.fbBytes, State.fbByte, Nat.add_assoc]
  · simp only [State.selectedBytes, State.crcInput, if_neg h]
    simp [State.tbBytes, State.tbByte, Nat.add_assoc]

/-- One byte of whitening shifts the LFSR eight times (R171). -/
theorem whMask_lfsr : ∀ l : BitVec 7, (whMask l).1 = lfsrShift^[8] l := by decide +kernel

/-- Bit i of the mask is bit 0 of the LFSR after i shifts (R171). -/
theorem whMask_getLsbD : ∀ (l : BitVec 7) (i : Fin 8), (whMask l).2.getLsbD i = (lfsrShift^[i] l).getLsbD 0 := by
  decide +kernel

end Sys2Proof.Machine
end

