-- ==== Sys2Proof/Laws/PerInstr.lean ====
section
/-! SUPPORT. Facts of every command, one lemma per constructor: its encoding fits exactly one row of the opcode map. -/

namespace Sys2Proof.Laws.OpcodeRow

/-- The command is well formed, and its command byte matches one row of the opcode map, which is its own (R92). -/
def Statement (i : Instr) : Prop :=
  i.wf = true ∧ (opcodeMap.filter fun r => encode i &&& r.mask == r.pattern).map (·.instr) = [i]

theorem nop : Statement .nop := by unfold Statement; decide
theorem build : Statement .build := by unfold Statement; decide
theorem buildStd : Statement .buildStd := by unfold Statement; decide
theorem appendCrc : Statement .appendCrc := by unfold Statement; decide
theorem crc : Statement .crc := by unfold Statement; decide
theorem whiten : Statement .whiten := by unfold Statement; decide
theorem reverse : Statement .reverse := by unfold Statement; decide
theorem copy : Statement .copy := by unfold Statement; decide
theorem encode : Statement .encode := by unfold Statement; decide
theorem sreset : Statement .sreset := by unfold Statement; decide

end Sys2Proof.Laws.OpcodeRow
end

