-- ==== Sys2Proof/Laws/Run.lean ====
section
/-! SUPPORT. Runs of host accesses, one access at a time: a run goes on from what its first access answers, and the
writes of a host program line to one register file or to TB are one update. -/

namespace Sys2Proof.Machine

/-! ## One access -/

/-- A run with nothing pending is over. -/
theorem finish_nil {s : State} (h : s.pending = []) : finish s = .next s := by
  simp only [finish, h, List.length_nil, Host.Core.run]
  rfl

/-- A run whose first access answers t, and leaves the others pending, goes on from t. -/
theorem finish_cons_of_next {s t : State} {e : Event} {rest : List Event}
    (h : step { s with pending := e :: rest } = .next t) (ht : t.pending = rest) :
    finish { s with pending := e :: rest } = finish t := by
  subst ht
  have hs : Sys2Proof.core.step { s with pending := e :: t.pending } = .next t := h
  simp only [finish, List.length_cons, Host.Core.run, hs]
  rfl

/-- A run of one access is its step. -/
theorem finish_singleton (s : State) (e : Event) :
    finish { s with pending := [e] } = step { s with pending := [e] } := by
  rcases h : step { s with pending := [e] } with t | f | r
  all_goals
    have hs : Sys2Proof.core.step { s with pending := [e] } = _ := h
    simp only [finish, List.length_singleton, Host.Core.run, hs]
    rfl

/-- Storing a byte leaves the pending accesses alone. -/
@[simp] theorem State.store_setPending (s : State) (es : List Event) (v : Byte) (l : Loc) :
    ({ s with pending := es } : State).store v l = { s.store v l with pending := es } := by cases l <;> rfl

/-- A run that starts with a byte write outside CMD goes on from the state with the byte stored. -/
theorem finish_wr {a : Byte} (ha : a ≠ 0x00) (s : State) (v : Byte) (rest : List Event) :
    finish { s with pending := .wr a v :: rest } = finish { s.store v (locate a) with pending := rest } := by
  apply finish_cons_of_next
  · show hostWrite a v { s with pending := rest } = _
    rw [hostWrite, if_neg ha, State.store_setPending]
  · rfl

/-- A run of a command's one CMD write answers what the command answers (R97). -/
theorem finish_cmdWrite (s : State) (i : Instr) :
    finish { s with pending := [cmdWrite i] } = exec i { s with pending := [] } := by
  rw [finish_singleton]
  cases i <;> rfl

/-! ## The writes of one line -/

/-- A register file after the bytes bs are stored from index i on. -/
def storeFrom {n : Nat} (v : Vector Byte n) (i : Nat) : List Byte → Vector Byte n
  | [] => v
  | b :: bs => storeFrom (v.setIfInBounds i b) (i + 1) bs

/-- The byte at each index: the stored ones inside the range, the former ones outside. -/
theorem getElem_storeFrom {n : Nat} (v : Vector Byte n) (i : Nat) (bs : List Byte) (j : Nat) (hj : j < n) :
    (storeFrom v i bs)[j] = if h : i ≤ j ∧ j < i + bs.length then bs[j - i] else v[j] := by
  induction bs generalizing v i with
  | nil => simp [storeFrom]
  | cons b bs ih =>
    rw [storeFrom, ih]
    by_cases hij : i = j
    · subst hij; simp
    · simp only [Vector.getElem_setIfInBounds, hij, List.length_cons]
      by_cases h : i + 1 ≤ j ∧ j < i + 1 + bs.length
      · rw [dif_pos h, dif_pos (by omega), List.getElem_cons, dif_neg (by omega)]
        simp only [Nat.sub_sub]
      · rw [dif_neg h, dif_neg (by omega)]; simp

/-- Bytes stored from the front on, before the former bytes beyond them. -/
theorem toList_storeFrom {n : Nat} (v : Vector Byte n) {bs : List Byte} (h : bs.length ≤ n) :
    (storeFrom v 0 bs).toList = bs ++ v.toList.drop bs.length := by
  apply List.ext_getElem (by simp; omega)
  intro j h₁ h₂
  have hj : j < n := by simpa using h₁
  rw [Vector.getElem_toList, getElem_storeFrom, List.getElem_append]
  by_cases hb : j < bs.length
  · simp [hb]
  · simp only [List.getElem_drop, Vector.getElem_toList]
    rw [dif_neg (by omega), dif_neg hb]
    congr 1; omega

/-- A line's writes to successive registers of a file are one update of the file. put is the state as a function of
the file, and the file starts at address a. -/
theorem finish_writes {n : Nat} {a : Byte} {put : Vector Byte n → State}
    (hput : ∀ (v : Vector Byte n) (i : Nat) (b : Byte) (h : i < n),
      a + BitVec.ofNat 8 i ≠ 0x00 ∧ (put v).store b (locate (a + BitVec.ofNat 8 i)) = put (v.set i b))
    (bs : List Byte) (v : Vector Byte n) (i : Nat) (h : i + bs.length ≤ n) (rest : List Event) :
    finish { put v with pending := writes (a + BitVec.ofNat 8 i) bs ++ rest } =
      finish { put (storeFrom v i bs) with pending := rest } := by
  induction bs generalizing v i with
  | nil => rfl
  | cons b bs ih =>
    have hi : i < n := by simp only [List.length_cons] at h; omega
    obtain ⟨ha, hs⟩ := hput v i b hi
    have hv : v.setIfInBounds i b = v.set i b := by
      ext j hj
      simp [Vector.getElem_set, Vector.getElem_setIfInBounds]
    have hnext : a + BitVec.ofNat 8 i + 1 = a + BitVec.ofNat 8 (i + 1) := by
      rw [BitVec.add_assoc]; congr 1
      apply BitVec.eq_of_toNat_eq; simp
    rw [writes, List.cons_append, finish_wr ha, hs, storeFrom, hv, hnext]
    exact ih _ _ (by simp only [List.length_cons] at h; omega)

theorem locate_mac : ∀ i : Fin 6, locate (0x10 + BitVec.ofNat 8 i) = .mac i := by decide

theorem locate_name : ∀ i : Fin 6, locate (0x16 + BitVec.ofNat 8 i) = .name i := by decide

theorem locate_mfr : ∀ i : Fin 8, locate (0x20 + BitVec.ofNat 8 i) = .mfr i := by decide

theorem locate_ad : ∀ i : Fin 21, locate (0x30 + BitVec.ofNat 8 i) = .ad i := by decide

theorem locate_tb : ∀ k : Fin 32, locate (0x80 + BitVec.ofNat 8 k) = .tb k := by decide

/-- A line's writes to successive bytes of TB are one write to the memory. -/
theorem finish_writes_tb (s : State) (k : Nat) (bs : List Byte) (h : k + bs.length ≤ 32) (rest : List Event) :
    finish { s with pending := writes (0x80 + BitVec.ofNat 8 k) bs ++ rest } =
      finish { s with pending := rest, mem := s.memWithTb k bs } := by
  induction bs generalizing s k with
  | nil => rfl
  | cons b bs ih =>
    simp only [List.length_cons] at h
    have ha : ∀ k : Fin 32, 0x80 + BitVec.ofNat 8 k ≠ (0x00 : Byte) := by decide
    have hnext : (0x80 : Byte) + BitVec.ofNat 8 k + 1 = 0x80 + BitVec.ofNat 8 (k + 1) := by
      rw [BitVec.add_assoc]; congr 1
      apply BitVec.eq_of_toNat_eq; simp
    rw [writes, List.cons_append, finish_wr (ha ⟨k, by omega⟩), locate_tb ⟨k, by omega⟩, hnext]
    exact ih { s with mem := s.memWithTb k [b] } (k + 1) (by omega)

/-- Every access of a line is one the host may make (R63, R98). -/
theorem wf_of_mem_expand {op : HostOp} {e : Event} (h : e ∈ op.expand) : e.wf = true := by
  have hw : ∀ (bs : List Byte) (a : Byte), e ∈ writes a bs → e.wf = true := by
    intro bs
    induction bs with
    | nil => simp [writes]
    | cons b bs ih =>
      intro a hm
      rcases List.mem_cons.mp hm with rfl | hm
      · rfl
      · exact ih _ hm
  cases op <;> simp only [HostOp.expand, cmdWrite, List.mem_append, List.mem_cons, List.not_mem_nil, or_false] at h
  case setmac => exact hw _ _ h
  case settb => exact hw _ _ h
  case setad | setname | setmfr => rcases h with h | rfl; exacts [hw _ _ h, rfl]
  all_goals rcases h with rfl | rfl | rfl | rfl <;> rfl

end Sys2Proof.Machine
end

