-- ==== Sys2Proof/Tests/Slice0.lean ====
section
/-! SUPPORT. Small tests, their expected values taken from spec/ (95_test_vectors.md and the rules' own examples), and
one witness for the hypotheses of each statement. -/

namespace Sys2Proof.Tests

open Sys2Proof Sys2Proof.Machine

/-! ## Helpers -/

/-- The state a result goes on to, or a given one. -/
def goOn (s : State) : Result → State
  | .next t => t
  | .fault _ => s
  | .refused _ => s

/-- The state after one command. -/
def after (i : Instr) (s : State) : State := goOn s (exec i s)

/-- The state after one host write. -/
def afterWrite (a v : Byte) (s : State) : State := goOn s (step (s.setPending [.wr a v]))

/-- The inputs of vector B1: MAC 01 02 03 04 05 C6, AD 02 01 05, ADLEN 3. -/
def staged : State :=
  { State.reset with
    mac := #v[0x01, 0x02, 0x03, 0x04, 0x05, 0xC6], adlen := 3,
    ad := ((State.reset.ad.set 0 0x02).set 1 0x01).set 2 0x05 }

/-- Vector B1's state. -/
def builtState : State := after .build staged

/-- Vector B2's state. -/
def preparedState : State := after .appendCrc builtState

/-- TB starting with the two bytes given, over the reset state. -/
def withTb (v w : Byte) : State := State.reset.setMem (State.reset.memWithTb 0 [v, w])

/-! ## WellFormed: an ill-formed term for each check -/

theorem test_wf_wide_read_refused : (Event.access 0 (.read 0x08 3)).wf = false := by decide
theorem test_wf_wide_write_refused : (Event.access 0 (.write 0x10 [1, 2])).wf = false := by decide
theorem test_wf_second_host_refused : (Event.access 1 (.read 0x08 1)).wf = false := by decide
theorem test_wf_reserved_name_refused : (HostOp.rd (.named (.reserved 0x0E))).wf = false := by decide
theorem test_wf_setmac_five_bytes_refused : (HostOp.setmac [1, 2, 3, 4, 5]).wf = false := by decide
theorem test_wf_setad_long_refused : (HostOp.setad (List.replicate 22 0)).wf = false := by decide
theorem test_wf_setname_long_refused : (HostOp.setname (List.replicate 7 0x41)).wf = false := by decide
theorem test_wf_setname_not_ascii_refused : (HostOp.setname [0x80]).wf = false := by decide
theorem test_wf_setmfr_long_refused : (HostOp.setmfr (List.replicate 9 0)).wf = false := by decide
theorem test_wf_settb_overrun_refused : (HostOp.settb 31 [1, 2]).wf = false := by decide
theorem test_wf_commands_and_lines_accepted :
    Instr.sreset.wf = true ∧ (Event.wr 0 0).wf = true ∧ (HostOp.settb 30 [1, 2]).wf = true := by decide

/-! ## Decoding: the words of R92, bit by bit -/

theorem test_decode_nop : decode 0b00000000 = .ok .nop := by rfl
theorem test_decode_build : decode 0b00000001 = .ok .build := by rfl
theorem test_decode_buildStd : decode 0b00000010 = .ok .buildStd := by rfl
theorem test_decode_appendCrc : decode 0b00000011 = .ok .appendCrc := by rfl
theorem test_decode_crc : decode 0b00000100 = .ok .crc := by rfl
theorem test_decode_whiten : decode 0b00000101 = .ok .whiten := by rfl
theorem test_decode_reverse : decode 0b00000110 = .ok .reverse := by rfl
theorem test_decode_copy : decode 0b00000111 = .ok .copy := by rfl
theorem test_decode_encode : decode 0b00001000 = .ok .encode := by rfl
theorem test_decode_sreset : decode 0b00001001 = .ok .sreset := by rfl
theorem test_decode_first_illegal : decode 0b00001010 = .error .illegalOpcode := by rfl
theorem test_decode_last_illegal : decode 0b11111111 = .error .illegalOpcode := by rfl
theorem test_decode_high_bit_matters : decode 0b10000001 = .error .illegalOpcode := by rfl
theorem test_opcode_rows_disjoint :
    opcodeMap.Pairwise (fun r q => r.pattern &&& (r.mask &&& q.mask) ≠ q.pattern &&& (r.mask &&& q.mask)) := by decide

/-! ## The units (95_test_vectors.md L2.1 to L2.3) -/

theorem test_crcStep_K2 : crcStep ⟨0xAA, 0xAA, 0xAA⟩ true = ⟨0x55, 0x35, 0x8F⟩ := by decide
theorem test_crcStep_K5 : crcStep ⟨0x00, 0x01, 0x01⟩ false = ⟨0x80, 0x80, 0x00⟩ := by decide
theorem test_crc24_C4 : crc24 [0x01] = ⟨0xEA, 0x29, 0xE3⟩ := by decide
theorem test_crc24_C14 :
    crc24 [0x42, 0x09, 0x01, 0x02, 0x03, 0x04, 0x05, 0xC6, 0x02, 0x01, 0x05] = ⟨0xDF, 0x0A, 0xC0⟩ := by decide +kernel
theorem test_whPass_channel1 : whPass (whSeed 1) [0, 0, 0] = ([0xD6, 0xC5, 0x44], 0x20) := by decide
theorem test_whPass_W7 : whPass (whSeed 0) [0x42, 0x1B] = ([0xCF, 0xC9], 0x6F) := by decide
/-- W10 and W11: whitening in two pieces is not whitening in one (R264). -/
theorem test_whPass_span_hazard :
    (whPass (whSeed 0) [0, 0]).1 = [0x8D, 0xD2] ∧
      (whPass (whSeed 0) [0]).1 ++ (whPass (whSeed 0) [0]).1 = [0x8D, 0x8D] := by decide
/-- R263's example: whitening and reversal do not commute. -/
theorem test_whiten_reverse_order :
    (whPass (whSeed 0) [0x42]).1.map rev8 = [0xF3] ∧ (whPass (whSeed 0) ([0x42].map rev8)).1 = [0xCF] := by decide
theorem test_rev8_access_address : [0xD6, 0xBE, 0x89, 0x8E].map rev8 = [0x6B, 0x7D, 0x91, 0x71] := by decide
theorem test_stdAd_B6 : stdAd 0x01 0x09 [] [] = [0x02, 0x01, 0x05, 0x01, 0x09, 0x01, 0xFF] := by decide
theorem test_stdAd_B7_middle :
    stdAd 0x01 0x09 [0x77, 0x4E] [0xA9] = [0x02, 0x01, 0x05, 0x03, 0x09, 0x77, 0x4E, 0x02, 0xFF, 0xA9] := by decide

/-! ## The commands, one step each (95_test_vectors.md L2.1 to L2.5) -/

/-- T12: from STATUS 0x36, NOP gives 0x22. -/
theorem test_nop_T12 :
    (after .nop { State.reset with fstate := .prepared, err := .illegal, errSeen := true }).memRead 0x01 = 0x22 := by
  decide

/-- B1. -/
theorem test_build_B1 :
    builtState.fbBytes 0 12 = [0x42, 0x09, 0x01, 0x02, 0x03, 0x04, 0x05, 0xC6, 0x02, 0x01, 0x05, 0x00] ∧
      builtState.flen = 11 ∧ builtState.memRead 0x01 = 0x01 := by decide

/-- B14: a failing BUILD keeps the PREPARED frame. -/
theorem test_build_B14 :
    (after .build { preparedState with adlen := 22 }).memRead 0x01 = 0x26 ∧
      (after .build { preparedState with adlen := 22 }).mem = preparedState.mem := by decide +kernel

/-- B6's length and B8. -/
theorem test_buildStd_B6_B8 :
    (after .buildStd State.reset).flen = 15 ∧
      (after .buildStd { State.reset with namelen := 7 }).memRead 0x01 = 0x24 := by decide

/-- B2. -/
theorem test_appendCrc_B2 :
    preparedState.fbBytes 10 5 = [0x05, 0xDF, 0x0A, 0xC0, 0x00] ∧ preparedState.crc = ⟨0xDF, 0x0A, 0xC0⟩ ∧
      preparedState.flen = 14 ∧ preparedState.memRead 0x01 = 0x02 := by decide +kernel

/-- B13: the CRC is already appended. -/
theorem test_appendCrc_B13 : (after .appendCrc preparedState).memRead 0x01 = 0x2A := by decide

/-- G2. -/
theorem test_crc_G2 : (after .crc { State.reset with start := 31, len := 1 }).crc = ⟨0x2A, 0x9D, 0xE2⟩ := by decide

/-- G8: no wrap. -/
theorem test_crc_G8 : (after .crc { State.reset with start := 255, len := 255 }).memRead 0x01 = 0x2C := by decide

/-- W2. -/
theorem test_whiten_W2 :
    (after .whiten { withTb 0xFF 0x00 with len := 1 }).tbBytes 0 2 = [0x72, 0x00] ∧
      (after .whiten { withTb 0xFF 0x00 with len := 1 }).wlfsr = 0x42 := by decide

/-- W13: CHAN before RANGE. -/
theorem test_whiten_W13 :
    (after .whiten { State.reset with chidx := 3, start := 30, len := 3 }).memRead 0x01 = 0x30 := by decide

/-- V9. -/
theorem test_reverse_V9 : (after .reverse { withTb 0x01 0xF0 with len := 2 }).tbBytes 0 2 = [0x80, 0x0F] := by decide

/-- V12. -/
theorem test_reverse_V12 : (after .reverse { State.reset with len := 33 }).memRead 0x01 = 0x2C := by decide

/-- T2. -/
theorem test_copy_T2 :
    (after .copy preparedState).tbBytes 0 15 =
      [0x42, 0x09, 0x01, 0x02, 0x03, 0x04, 0x05, 0xC6, 0x02, 0x01, 0x05, 0xDF, 0x0A, 0xC0, 0x00] := by decide +kernel

/-- T1. -/
theorem test_encode_T1 :
    (after .encode { preparedState with chidx := 2 }).tbBytes 0 15 =
        [0xBA, 0x7C, 0xD2, 0xBA, 0x61, 0x4F, 0x99, 0x3A, 0xC3, 0xEB, 0x03, 0xD9, 0x54, 0x99, 0x00] ∧
      (after .encode { preparedState with chidx := 2 }).wlfsr = 0x2E := by decide +kernel

/-- T9: STATE before CHAN. -/
theorem test_encode_T9 : (after .encode { State.reset with chidx := 3 }).memRead 0x01 = 0x28 := by decide

/-- T14. -/
theorem test_sreset_T14 : after .sreset preparedState = State.reset := by decide

/-! ## Host accesses (95_test_vectors.md L2.6) and the step -/

theorem test_write_chidx_H1 : (afterWrite 0x02 0xFF State.reset).memRead 0x02 = 0x03 := by decide
theorem test_write_sel_H2 : (afterWrite 0x03 0xFF State.reset).memRead 0x03 = 0x01 := by decide
theorem test_write_status_ignored_H3 : afterWrite 0x01 0xFF State.reset = State.reset := by decide
theorem test_write_fb_ignored_H4 : afterWrite 0x60 0x12 State.reset = State.reset := by decide
theorem test_write_reserved_ignored_H5 : afterWrite 0x0E 0x55 State.reset = State.reset := by decide
theorem test_write_tb_H7 : (afterWrite 0x85 0x12 State.reset).memRead 0x85 = 0x12 := by decide
theorem test_write_illegal_T11 : (afterWrite 0x00 0x0A { State.reset with fstate := .prepared }).memRead 0x01 = 0x36 := by
  decide
theorem test_read_crc0_H9 : (goOn State.reset (step (State.reset.setPending [.rd 0x08]))).reads = [0xAA] := by decide
theorem test_expand_encode_line : (HostOp.encode 1).expand = [.wr 0x02 0x01, .wr 0x00 0x08] := by decide

/-- R98's expansions of setname and settb. -/
theorem test_expand_staging_lines :
    (HostOp.setname [0x77, 0x4E]).expand = [.wr 0x16 0x77, .wr 0x17 0x4E, .wr 0x0C 2] ∧
      (HostOp.settb 30 [1, 2]).expand = [.wr 0x9E 1, .wr 0x9F 2] := by decide

theorem test_expect_lines :
    expectationsHold [.cmd .nop, .expect (.named .status) 0x00, .rd (.literal 0x08)] [0x00, 0xAA] = true ∧
      expectationsHold [.expect (.named .status) 0x00] [0x01] = false := by decide

/-! ## Witnesses: a state and operands that meet each statement's hypotheses -/

/-- The hypotheses and the completion of a statement about a command, at one state. -/
def completes (i : Instr) (s : State) : Prop := ∃ t, exec i s = .next t ∧ t.err = .ok

theorem witness_DecodeInvertsEncode : Instr.copy.wf = true ∧ decode 0x07 = .ok .copy := ⟨rfl, rfl⟩

theorem witness_StepRunsIssuedCommand :
    (State.reset.setPending [.wr 0x00 0x09]).pending = .wr 0x00 0x09 :: [] ∧ decode 0x09 = .ok .sreset := ⟨rfl, rfl⟩

theorem witness_FetchedCommandRuns : Instr.whiten.wf = true := rfl

theorem witness_IllegalOpcodeOnlySetsStatus :
    (State.reset.setPending [.wr 0x00 0x0A]).pending = .wr 0x00 0x0A :: [] ∧ 0x0A ≤ (0x0A : Byte).toNat ∧
      0x0A ≤ (0xFF : Byte).toNat := by decide

theorem witness_HostReadReturnsLocation :
    (State.reset.setPending [.rd 0x01]).pending = .rd 0x01 :: [] ∧ ReservedAddr 0x0E ∧ ReservedAddr 0x1F ∧
      ReservedAddr 0x28 ∧ ReservedAddr 0x5F ∧ ReservedAddr 0xA0 ∧ ReservedAddr 0xFF := by decide

/-- Every clause of the write statement has an address, at the edges of its ranges, and no address is in two. -/
theorem witness_HostWriteStoresAtOneLocation :
    (State.reset.setPending [.wr 0x9F 1]).pending = .wr 0x9F 1 :: [] ∧ FullByteAddr 0x04 ∧ FullByteAddr 0x0D ∧
      FullByteAddr 0x10 ∧ FullByteAddr 0x44 ∧ FullByteAddr 0x80 ∧ FullByteAddr 0x9F ∧ ReadOnlyAddr 0x01 ∧
      ReadOnlyAddr 0x0B ∧ ReadOnlyAddr 0x60 ∧ ReadOnlyAddr 0x7F ∧ ReservedAddr 0x0F ∧ decode 0x00 = .ok .nop ∧
      decode 0x0A = .error .illegalOpcode := ⟨rfl, by decide, by decide, by decide, by decide, by decide, by decide,
        by decide, by decide, by decide, by decide, by decide, rfl, rfl⟩

theorem witness_write_clauses_are_apart : ∀ a : Byte,
    ((if a = 0x00 then 1 else 0) + (if a = 0x02 then 1 else 0) + (if a = 0x03 then 1 else 0) +
      (if FullByteAddr a then 1 else 0) + (if ReadOnlyAddr a then 1 else 0) + (if ReservedAddr a then 1 else 0)) = 1 := by
  decide

theorem witness_ReservedAndReadOnlyWritesIgnored :
    (ReservedAddr 0xFF ∧ (State.reset.setPending [.wr 0xFF 1]).pending = .wr 0xFF 1 :: []) ∧
      (ReadOnlyAddr 0x60 ∧ (State.reset.setPending [.rd 0x60]).pending = .rd 0x60 :: []) := by decide

theorem witness_WideAndSecondHostAccessesRefused :
    (State.reset.setPending [.access 0 (.read 0x08 3)]).pending = .access 0 (.read 0x08 3) :: [] ∧ (3 : Nat) ≠ 1 ∧
      (State.reset.setPending [.access 0 (.write 0x10 [])]).pending = .access 0 (.write 0x10 []) :: [] ∧
      ([] : List Byte).length ≠ 1 ∧
      (State.reset.setPending [.access 1 (.read 0 1)]).pending = .access 1 (.read 0 1) :: [] ∧ (1 : Nat) ≠ 0 := by
  decide

theorem witness_IdleBlockKeepsItsState : State.reset.pending = [] := rfl

theorem witness_HostWriteTwiceIsOnce :
    (0x80 : Byte) ≠ 0x00 ∧ (State.reset.setPending [.wr 0x80 7]).pending = .wr 0x80 7 :: [] ∧
      ∃ t, step (State.reset.setPending [.wr 0x80 7]) = .next t := ⟨by decide, rfl, _, rfl⟩

theorem witness_OperandWritesCommute :
    State.reset.MemoryForm ∧ (0x80 : Byte) ≠ 0x00 ∧ (0x9F : Byte) ≠ 0x00 ∧ (0x80 : Byte) ≠ 0x9F := by decide

theorem witness_ResetValuesAsStated :
    (∃ t, exec .sreset preparedState = .next t) ∧
      ((∃ rest, (staged.setPending [.reset]).pending = .reset :: rest) ∧ ∃ t, step (staged.setPending [.reset]) = .next t) :=
  ⟨⟨_, rfl⟩, ⟨_, rfl⟩, _, rfl⟩

theorem witness_SresetIsHardwareReset : (staged.setPending [.reset]).pending = .reset :: [] := rfl

theorem witness_FailingCommandOnlySetsStatus : ∃ t, exec .build State.reset = .next t ∧ t.err ≠ .ok :=
  ⟨_, rfl, by decide⟩

/-- Each cause of the error table, met by a command that answers a next state. -/
theorem witness_ErrorCodesHaveTheirCauses :
    (∃ t, exec .build State.reset = .next t ∧ t.err = .size) ∧
    (∃ t, exec .buildStd { State.reset with mfrlen := 9 } = .next t ∧ t.err = .size) ∧
    (∃ t, exec .appendCrc State.reset = .next t ∧ t.err = .state) ∧
    (∃ t, exec .encode State.reset = .next t ∧ t.err = .state) ∧
    (∃ t, exec .whiten { State.reset with chidx := 3 } = .next t ∧ t.err = .chan) ∧
    (∃ t, exec .encode { State.reset with fstate := .prepared, chidx := 3 } = .next t ∧ t.err = .chan) ∧
    (∃ t, exec .crc { State.reset with start := 32, len := 1 } = .next t ∧ t.err = .range) :=
  ⟨⟨_, rfl, rfl⟩, ⟨_, rfl, rfl⟩, ⟨_, rfl, rfl⟩, ⟨_, rfl, rfl⟩, ⟨_, rfl, rfl⟩, ⟨_, rfl, rfl⟩, ⟨_, rfl, rfl⟩⟩

theorem witness_ErrSeenIsSticky :
    (∃ t, step (State.reset.setPending [.wr 0x00 0x01]) = .next t ∧ t.err ≠ .ok) ∧
    ∃ t, step ({ State.reset with errSeen := true }.setPending [.wr 0x00 0x00]) = .next t :=
  ⟨⟨_, rfl, by decide⟩, _, rfl⟩

theorem witness_StepKeepsStickyError : State.reset.StickyError ∧ ∃ t, step State.reset = .next t :=
  ⟨by decide, _, rfl⟩

/-- Both clauses of BUILD at the edges of the legal lengths. -/
theorem witness_BuildAssemblesFrame :
    ({ State.reset with adlen := 0 } : State).adlen.toNat = 0 ∧ 21 < ({ State.reset with adlen := 22 } : State).adlen.toNat ∧
    completes .build { State.reset with adlen := 1 } ∧ completes .build { State.reset with adlen := 21 } :=
  ⟨rfl, by decide, ⟨_, rfl, rfl⟩, ⟨_, rfl, rfl⟩⟩

theorem witness_BuildStdAssemblesStandardFrame :
    6 < ({ State.reset with namelen := 7 } : State).namelen.toNat ∧
    8 < ({ State.reset with mfrlen := 9 } : State).mfrlen.toNat ∧ completes .buildStd State.reset ∧
    completes .buildStd { State.reset with namelen := 6, mfrlen := 8 } :=
  ⟨by decide, by decide, ⟨_, rfl, rfl⟩, ⟨_, rfl, rfl⟩⟩

theorem witness_AppendCrcSealsFrame :
    State.reset.fstate ≠ .built ∧ builtState.fstate = .built ∧ builtState.flen.toNat ≤ 29 ∧
    completes .appendCrc { State.reset with fstate := .built, flen := 29 } :=
  ⟨by decide, by decide, by decide, ⟨_, rfl, rfl⟩⟩

theorem witness_CrcComputesSelectedRange :
    32 < ({ State.reset with start := 32, len := 1 } : State).start.toNat +
      ({ State.reset with start := 32, len := 1 } : State).len.toNat ∧
    completes .crc { State.reset with start := 32, len := 0 } ∧ completes .crc { State.reset with sel := 1, len := 32 } :=
  ⟨by decide, ⟨_, rfl, rfl⟩, ⟨_, rfl, rfl⟩⟩

theorem witness_ZeroLengthCrcGivesInitialValue :
    ({ State.reset with start := 32 } : State).len = 0 ∧ ({ State.reset with start := 32 } : State).start.toNat ≤ 32 := by
  decide

theorem witness_WhitenWhitensRange :
    ({ State.reset with chidx := 3 } : State).chidx = 3 ∧
    (State.reset.chidx ≠ 3 ∧ 32 < ({ State.reset with len := 33 } : State).len.toNat) ∧
    ({ State.reset with chidx := 2 } : State).chidx.toNat = (2 : Fin 3).val ∧
    completes .whiten { State.reset with chidx := 2, start := 0, len := 32 } :=
  ⟨rfl, by decide, rfl, ⟨_, rfl, rfl⟩⟩

theorem witness_ReverseReversesRange :
    32 < ({ State.reset with len := 33 } : State).len.toNat ∧ completes .reverse { State.reset with len := 32 } :=
  ⟨by decide, ⟨_, rfl, rfl⟩⟩

theorem witness_EncodeEncodesPreparedFrame :
    State.reset.fstate ≠ .prepared ∧ preparedState.fstate = .prepared ∧
    ({ preparedState with chidx := 3 } : State).chidx = 3 ∧ preparedState.chidx.toNat = (0 : Fin 3).val ∧
    preparedState.flen.toNat ≤ 32 ∧ completes .encode { State.reset with fstate := .prepared, flen := 32 } :=
  ⟨by decide, by decide, by decide, by decide, by decide, ⟨_, rfl, rfl⟩⟩

theorem witness_OverlongFrameStopsByName :
    exec .appendCrc { State.reset with fstate := .built, flen := 30 } = .fault .bufferOverrun ∧
    exec .encode { State.reset with fstate := .prepared, flen := 33 } = .fault .bufferOverrun := ⟨rfl, rfl⟩

/-- The frames' hypotheses: commands outside each statement's list of writers, and a next state. -/
theorem witness_frames_of_commands :
    (∃ t, exec .encode State.reset = .next t) ∧ (∃ t, exec .appendCrc builtState = .next t) ∧
    (∃ t, exec .copy State.reset = .next t) ∧ Instr.encode ≠ .sreset ∧ Instr.appendCrc ≠ .copy :=
  ⟨⟨_, rfl⟩, ⟨_, rfl⟩, ⟨_, rfl⟩, by decide, by decide⟩

theorem witness_TransientRegistersAreNotRead : ∃ t, exec .crc State.reset = .next t := ⟨_, rfl⟩

theorem witness_UnlistedOperandsAreNotRead :
    Instr.nop ≠ .sreset ∧ Instr.nop ≠ .build ∧ Instr.nop ≠ .buildStd ∧ Instr.nop ≠ .whiten ∧ Instr.nop ≠ .encode ∧
    Instr.nop ≠ .crc ∧ Instr.nop ≠ .reverse ∧ ∃ t, exec .nop State.reset = .next t :=
  ⟨by decide, by decide, by decide, by decide, by decide, by decide, by decide, _, rfl⟩

/-- A PREPARED state that meets every invariant, and a step from it: the premises of the invariant statements and of
the sequences of commands. -/
theorem witness_prepared_state_meets_invariants :
    preparedState.Inv ∧ preparedState.Header ∧ preparedState.fstate = .prepared ∧ preparedState.chidx ≠ 3 ∧
      (1 : BitVec 2) ≠ 3 := by decide +kernel

theorem witness_StepKeepsInvariants :
    builtState.Inv ∧ builtState.Header ∧ ∃ t, step (builtState.setPending [.wr 0x00 0x03]) = .next t :=
  ⟨by decide, by decide, _, rfl⟩

theorem witness_EveryRunEnds :
    (preparedState.setPending [.wr 0x00 0x08, .rd 0x80, .reset]).Inv ∧
    (preparedState.setPending [.wr 0x00 0x08, .rd 0x80, .reset]).HostKeepsRules :=
  ⟨by decide +kernel, by unfold State.HostKeepsRules; decide +kernel⟩

theorem witness_CrcIsAffine : ([0x42, 0x09] : List Byte).length = ([0xFF, 0x01] : List Byte).length := rfl

theorem witness_ChannelSeedsAsStated :
    ({ State.reset with chidx := 3, fstate := .prepared } : State).chidx = 3 ∧
    ({ State.reset with chidx := 3, fstate := .prepared } : State).fstate = .prepared := ⟨rfl, rfl⟩

theorem witness_WhiteningLfsrStructure :
    (0x65 : BitVec 7) ≠ 0 ∧ 0 < 126 ∧ 126 < 127 ∧ ([0x42, 0x1B] : List Byte)[1]? = some 0x1B ∧ 7 < 8 := by decide

theorem witness_Rev8ReversesBits : 7 < 8 := by decide

/-- Each clause on staging lines, at the edges of its lengths. -/
theorem witness_MnemonicsAndStagingLinesTakeEffect :
    ([1, 2, 3, 4, 5, 6] : List Byte).length = 6 ∧ (List.replicate 6 (0x41 : Byte)).length ≤ 6 ∧
      (List.replicate 8 (0xFF : Byte)).length ≤ 8 ∧ ([] : List Byte).length ≤ 6 ∧
      (0x1F : Byte).toNat + ([0x12] : List Byte).length ≤ 32 ∧ (0x20 : Byte).toNat + ([] : List Byte).length ≤ 32 ∧
      (0x00 : Byte).toNat + (List.replicate 32 (0x00 : Byte)).length ≤ 32 := by decide

theorem witness_SetadStagesBytes : (List.replicate 21 (0x42 : Byte)).length ≤ 21 ∧ ([] : List Byte).length ≤ 21 := by
  decide

end Sys2Proof.Tests
end

/-! ## The step and the bus, access by access

One equation per kind of access the host may make, and the two classes of addresses that a write does not change. -/

namespace Sys2Proof.Machine

/-- A step with something pending serves the first of it. -/
theorem step_of_pending {s : State} {e : Event} {rest : List Event} (h : s.pending = e :: rest) :
    step s = serve e (s.setPending rest) := by
  simp only [step, serveNext, h]

/-- A location reads the same whatever the host still has to come. -/
@[simp] theorem State.memRead_setPending (s : State) (es : List Event) (a : Byte) :
    (s.setPending es).memRead a = s.memRead a := by
  unfold State.memRead
  cases locate a <;> rfl

theorem step_of_pending_wr {s : State} {a v : Byte} {rest : List Event} (h : s.pending = .wr a v :: rest) :
    step s = hostWrite a v (s.setPending rest) := step_of_pending h

theorem step_of_pending_rd {s : State} {a : Byte} {rest : List Event} (h : s.pending = .rd a :: rest) :
    step s = .next ((s.setPending rest).logRead (s.memRead a)) := by
  have hstep : step s = .next ((s.setPending rest).logRead ((s.setPending rest).memRead a)) := step_of_pending h
  rwa [State.memRead_setPending] at hstep

theorem step_of_pending_reset {s : State} {rest : List Event} (h : s.pending = .reset :: rest) :
    step s = .next (s.setPending rest).resetBlock := step_of_pending h

/-- A byte written outside CMD is stored. -/
theorem hostWrite_of_ne_cmd {a : Byte} (ha : a ≠ 0x00) (v : Byte) (s : State) :
    hostWrite a v s = .next (s.store v (locate a)) := if_neg ha

/-- The locations that hold a byte a host write cannot change: the read-only and the reserved ones (R49). -/
def Loc.ignoresStore : Loc → Bool
  | .status | .flen | .crc0 | .crc1 | .crc2 | .wlfsr | .fb _ | .reserved _ => true
  | _ => false

theorem State.store_of_ignoresStore {l : Loc} (h : l.ignoresStore = true) (s : State) (v : Byte) :
    s.store v l = s := by
  cases l <;> cases h <;> rfl

theorem ignoresStore_locate :
    ∀ a : Byte, ReservedAddr a ∨ ReadOnlyAddr a → (locate a).ignoresStore = true := by decide

theorem locate_of_reservedAddr : ∀ a : Byte, ReservedAddr a → locate a = .reserved a := by decide

theorem locate_of_fbAddr {a : Byte} (h₁ : 0x60 ≤ a.toNat) (h₂ : a.toNat ≤ 0x7F) :
    locate a = .fb ⟨a.toNat - 0x60, by omega⟩ := by
  revert a; decide

theorem State.memRead_of_reservedAddr (s : State) {a : Byte} (h : ReservedAddr a) : s.memRead a = 0x00 := by
  rw [State.memRead, locate_of_reservedAddr a h]; rfl

theorem State.memRead_of_fbAddr (s : State) {a : Byte} (h₁ : 0x60 ≤ a.toNat) (h₂ : a.toNat ≤ 0x7F) :
    s.memRead a = s.mem.read a.toNat := by
  have haddr : Config.fbBase + (a.toNat - 0x60) = a.toNat := by simp only [Config.fbBase]; omega
  rw [State.memRead, locate_of_fbAddr h₁ h₂, State.load, State.fbByte, haddr]

/-- A write to a reserved or read-only address leaves the state to the next access. -/
theorem step_wr_of_ignored {s : State} {a v : Byte} {rest : List Event} (ha : ReservedAddr a ∨ ReadOnlyAddr a)
    (h : s.pending = .wr a v :: rest) : step s = .next (s.setPending rest) := by
  have hl := ignoresStore_locate a ha
  have hne : a ≠ 0x00 := by rintro rfl; cases hl
  rw [step_of_pending_wr h, hostWrite_of_ne_cmd hne, State.store_of_ignoresStore hl]

/-- Settles O8: a write there is stored nowhere, and a read returns what the address locates. -/
theorem reservedAndReadOnlyWritesIgnored : Obligations.ReservedAndReadOnlyWritesIgnored := by
  intro s a v rest ha
  refine ⟨step_wr_of_ignored ha, fun h => ⟨s.memRead a, step_of_pending_rd h, ?_⟩⟩
  have hlfsr : (s.memRead 0x0B).toNat = s.wlfsr.toNat := BitVec.toNat_setWidth_of_le (by decide)
  exact ⟨s.memRead_of_reservedAddr, fun h => h ▸ rfl, fun h => h ▸ rfl, fun h => h ▸ rfl, fun h => h ▸ rfl,
    fun h => h ▸ rfl, fun h => h ▸ hlfsr, s.memRead_of_fbAddr⟩

end Sys2Proof.Machine

/-! ## Reset -/

namespace Sys2Proof.Machine

/-- After a reset each location reads what it reads in the start state. -/
@[simp] theorem State.memRead_resetBlock (s : State) (a : Byte) : s.resetBlock.memRead a = State.reset.memRead a := by
  unfold State.memRead
  cases locate a <;> rfl

/-- The reset column of R47, as the host reads it. -/
theorem State.memRead_reset :
    ∀ a : Byte, State.reset.memRead a = if a = 0x08 ∨ a = 0x09 ∨ a = 0x0A then 0xAA else 0x00 := by decide

/-- The start state, SRESET and the reset input all leave a block just reset. -/
theorem exists_eq_resetBlock {s t : State}
    (h : t = State.reset ∨ exec .sreset s = .next t ∨ ((∃ rest, s.pending = .reset :: rest) ∧ step s = .next t)) :
    ∃ u : State, t = u.resetBlock := by
  obtain rfl | h | ⟨⟨rest, hp⟩, h⟩ := h
  · exact ⟨State.reset, rfl⟩
  · exact ⟨s, execSreset_next h⟩
  · rw [step_of_pending_reset hp] at h
    cases h
    exact ⟨_, rfl⟩

/-- Settles O13: each way ends in a block just reset, whose fields and locations the reset state gives. -/
theorem resetValuesAsStated : Obligations.ResetValuesAsStated := by
  intro s t h
  obtain ⟨u, rfl⟩ := exists_eq_resetBlock h
  refine ⟨rfl, rfl, rfl, rfl, rfl, rfl, rfl, rfl, Memory.read_nil, fun a => ?_⟩
  rw [State.memRead_resetBlock, State.memRead_reset]

end Sys2Proof.Machine

/-! ## ERR and ERRSEEN -/

namespace Sys2Proof.Machine

/-- How a command that answers a next state leaves STATUS: it fails and does nothing else, or it leaves ERR = OK, and
then only SRESET touches ERRSEEN (R13, R27). -/
theorem exec_next_status {i : Instr} {s t : State} (h : exec i s = .next t) :
    (∃ c, c ≠ .ok ∧ t = s.failed c) ∨ (t.err = .ok ∧ (i = .sreset ∨ t.errSeen = s.errSeen)) := by
  cases i with
  | nop => obtain rfl := execNop_next h; exact .inr ⟨rfl, .inr rfl⟩
  | copy => obtain rfl := execCopy_next h; exact .inr ⟨rfl, .inr rfl⟩
  | sreset => obtain rfl := execSreset_next h; exact .inr ⟨rfl, .inl rfl⟩
  | build =>
    obtain ⟨-, rfl⟩ | ⟨-, rfl⟩ := execBuild_next h
    · exact .inl ⟨.size, by decide, rfl⟩
    · exact .inr ⟨rfl, .inr rfl⟩
  | buildStd =>
    obtain ⟨-, rfl⟩ | ⟨-, rfl⟩ := execBuildStd_next h
    · exact .inl ⟨.size, by decide, rfl⟩
    · exact .inr ⟨rfl, .inr rfl⟩
  | appendCrc =>
    obtain ⟨-, rfl⟩ | ⟨-, -, rfl⟩ := execAppendCrc_next h
    · exact .inl ⟨.state, by decide, rfl⟩
    · exact .inr ⟨rfl, .inr rfl⟩
  | crc =>
    obtain ⟨-, rfl⟩ | ⟨-, rfl⟩ := execCrc_next h
    · exact .inl ⟨.range, by decide, rfl⟩
    · exact .inr ⟨rfl, .inr rfl⟩
  | reverse =>
    obtain ⟨-, rfl⟩ | ⟨-, rfl⟩ := execReverse_next h
    · exact .inl ⟨.range, by decide, rfl⟩
    · exact .inr ⟨rfl, .inr rfl⟩
  | whiten =>
    obtain ⟨-, rfl⟩ | ⟨c, -, -, rfl⟩ | ⟨c, -, -, rfl⟩ := execWhiten_next h
    · exact .inl ⟨.chan, by decide, rfl⟩
    · exact .inl ⟨.range, by decide, rfl⟩
    · exact .inr ⟨rfl, .inr rfl⟩
  | encode =>
    obtain ⟨-, rfl⟩ | ⟨-, -, rfl⟩ | ⟨c, -, -, -, rfl⟩ := execEncode_next h
    · exact .inl ⟨.state, by decide, rfl⟩
    · exact .inl ⟨.chan, by decide, rfl⟩
    · exact .inr ⟨rfl, .inr rfl⟩

/-- Only its command byte decodes to SRESET (R92). -/
theorem eq_of_decode_sreset : ∀ v : Byte, decode v = .ok .sreset → v = 0x09 := by decide

@[simp] theorem State.store_errSeen (s : State) (v : Byte) (l : Loc) : (s.store v l).errSeen = s.errSeen := by
  cases l <;> rfl

/-- A write to CMD that leaves an error code leaves ERRSEEN = 1. -/
theorem errSeen_of_hostWrite_cmd {v : Byte} {s t : State} (h : hostWrite 0x00 v s = .next t) (ht : t.err ≠ .ok) :
    t.errSeen = true := by
  obtain ⟨i, -, -, hexec⟩ | ⟨-, -, rfl⟩ | ⟨hne, -⟩ := hostWrite_next h
  · obtain ⟨c, -, rfl⟩ | ⟨hok, -⟩ := exec_next_status hexec
    · rfl
    · exact absurd hok ht
  · rfl
  · exact absurd rfl hne

/-- A host write keeps ERRSEEN = 1, unless it issues SRESET. -/
theorem errSeen_hostWrite {a v : Byte} {s t : State} (h : hostWrite a v s = .next t) (hs : s.errSeen = true) :
    t.errSeen = true ∨ (a = 0x00 ∧ v = 0x09) := by
  obtain ⟨i, ha, hi, hexec⟩ | ⟨-, -, rfl⟩ | ⟨-, rfl⟩ := hostWrite_next h
  · obtain ⟨c, -, rfl⟩ | ⟨-, rfl | hkeep⟩ := exec_next_status hexec
    · exact .inl rfl
    · exact .inr ⟨ha, eq_of_decode_sreset v hi⟩
    · exact .inl (hkeep.trans hs)
  · exact .inl rfl
  · exact .inl ((s.store_errSeen v _).trans hs)

/-- Settles O18: by the kinds of step, a host write being the only one that a failure or SRESET can come from. -/
theorem errSeenIsSticky : Obligations.ErrSeenIsSticky := by
  constructor
  · intro s t v rest hp h ht
    rw [step_of_pending_wr hp] at h
    exact errSeen_of_hostWrite_cmd h ht
  · intro s t h hs
    obtain ⟨-, rfl⟩ | ⟨e, rest, hp, he⟩ := step_next h
    · exact .inl hs
    obtain ⟨rfl, -⟩ | ⟨a, rfl, rfl⟩ | ⟨a, v, rfl, hw⟩ := serve_next he
    · exact .inr (.inl ⟨rest, hp⟩)
    · exact .inl hs
    · obtain hkeep | ⟨rfl, rfl⟩ := errSeen_hostWrite hw hs
      · exact .inl hkeep
      · exact .inr (.inr ⟨rest, hp⟩)

end Sys2Proof.Machine

/-! ## The meanings, case by case

What each command answers in each of its cases, the converse of the inversion lemmas execBuild_next to
execEncode_next. -/

namespace Sys2Proof.Machine

theorem execBuild_of_size {s : State} (h : s.adlen.toNat = 0 ∨ 21 < s.adlen.toNat) : execBuild s = fail .size s :=
  if_pos h

theorem execBuild_of_legal {s : State} (h : 1 ≤ s.adlen.toNat ∧ s.adlen.toNat ≤ 21) :
    execBuild s = ok (s.buildFrame s.adBytes) := if_neg (by simp only [Config.adMax]; omega)

theorem execBuildStd_of_size {s : State} (h : 6 < s.namelen.toNat ∨ 8 < s.mfrlen.toNat) :
    execBuildStd s = fail .size s := if_pos h

theorem execBuildStd_of_legal {s : State} (h : s.namelen.toNat ≤ 6 ∧ s.mfrlen.toNat ≤ 8) :
    execBuildStd s = ok (s.buildFrame (stdAd Config.flagsAdType Config.nameAdType s.nameBytes s.mfrBytes)) :=
  if_neg (by simp only [Config.nameMax, Config.mfrMax]; omega)

theorem execAppendCrc_of_not_built {s : State} (h : s.fstate ≠ .built) : execAppendCrc s = fail .state s := by
  unfold execAppendCrc
  split
  · rfl
  · rfl
  · next hf => exact absurd hf h

theorem execAppendCrc_of_built {s : State} (hf : s.fstate = .built) (hn : s.flen.toNat ≤ 29) :
    execAppendCrc s =
      ok ((s.setFrame .prepared (Byte.ofLength (s.flen.toNat + 3))
        (s.memWithFb s.flen.toNat (crc24 (s.fbBytes 0 s.flen.toNat)).bytes)).setCrc
          (crc24 (s.fbBytes 0 s.flen.toNat))) := by
  simp only [execAppendCrc, hf]
  exact if_neg (by simp only [Config.bufferCap]; omega)

theorem execCrc_of_range {s : State} (h : s.rangeLegal = false) : execCrc s = fail .range s :=
  if_neg (Bool.eq_false_iff.mp h)

theorem execCrc_of_legal {s : State} (h : s.rangeLegal = true) :
    execCrc s = ok (s.setCrc (crc24 s.selectedBytes)) := if_pos h

theorem execReverse_of_range {s : State} (h : s.rangeLegal = false) : execReverse s = fail .range s :=
  if_neg (Bool.eq_false_iff.mp h)

theorem execReverse_of_legal {s : State} (h : s.rangeLegal = true) :
    execReverse s = ok (s.setMem (s.memWithTb s.start.toNat (s.tbRange.map rev8))) := if_pos h

theorem execWhiten_of_chan {s : State} (h : s.channel = none) : execWhiten s = fail .chan s := by
  simp only [execWhiten, h]

theorem execWhiten_of_range {s : State} {c : Fin 3} (hc : s.channel = some c) (h : s.rangeLegal = false) :
    execWhiten s = fail .range s := by
  simp [execWhiten, hc, h]

theorem execWhiten_of_legal {s : State} {c : Fin 3} (hc : s.channel = some c) (h : s.rangeLegal = true) :
    execWhiten s =
      ok ((s.setMem (s.memWithTb s.start.toNat (whPass (whSeed c) s.tbRange).1)).setWlfsr
        (whPass (whSeed c) s.tbRange).2) := by
  simp [execWhiten, hc, h]

theorem execEncode_of_not_prepared {s : State} (h : s.fstate ≠ .prepared) : execEncode s = fail .state s := by
  unfold execEncode
  split
  · rfl
  · rfl
  · next hf => exact absurd hf h

theorem execEncode_of_chan {s : State} (hf : s.fstate = .prepared) (hc : s.channel = none) :
    execEncode s = fail .chan s := by
  simp only [execEncode, hf, hc]

theorem execEncode_of_prepared {s : State} {c : Fin 3} (hf : s.fstate = .prepared) (hc : s.channel = some c)
    (hn : s.flen.toNat ≤ 32) :
    execEncode s =
      ok ((s.setMem (s.memWithTb 0 (encodedBuffer (whPass (whSeed c) (s.fbBytes 0 s.flen.toNat)).1))).setWlfsr
        (whPass (whSeed c) (s.fbBytes 0 s.flen.toNat)).2) := by
  simp only [execEncode, hf, hc]
  exact if_neg (by simp only [Config.bufferCap]; omega)

end Sys2Proof.Machine

/-! ## The transient registers

Every condition and every byte a meaning reads is one of fields other than CRC0..2 and WLFSR, so the case a state is in
does not change with these two, and the equation of the case gives the same writes. -/

namespace Sys2Proof.Machine

/-- A meaning does not read CRC0..2 or WLFSR: from other values there it answers the same, but that one of the two
which it does not write keeps its own value (R46). -/
def ReadsNoTransient (f : State → Result) : Prop :=
  ∀ (s t : State) (c : CrcReg) (l : BitVec 7), f s = .next t →
    ∃ c' l', f { s with crc := c, wlfsr := l } = .next { t with crc := c', wlfsr := l' } ∧
      (c' = t.crc ∨ (c' = c ∧ t.crc = s.crc)) ∧ (l' = t.wlfsr ∨ (l' = l ∧ t.wlfsr = s.wlfsr))

theorem readsNoTransient_nop : ReadsNoTransient execNop := by
  intro s t c l h
  obtain rfl := execNop_next h
  exact ⟨c, l, rfl, .inr ⟨rfl, rfl⟩, .inr ⟨rfl, rfl⟩⟩

theorem readsNoTransient_copy : ReadsNoTransient execCopy := by
  intro s t c l h
  obtain rfl := execCopy_next h
  exact ⟨c, l, rfl, .inr ⟨rfl, rfl⟩, .inr ⟨rfl, rfl⟩⟩

theorem readsNoTransient_sreset : ReadsNoTransient execSreset := by
  intro s t c l h
  obtain rfl := execSreset_next h
  exact ⟨_, _, rfl, .inl rfl, .inl rfl⟩

theorem readsNoTransient_build : ReadsNoTransient execBuild := by
  intro s t c l h
  obtain ⟨hn, rfl⟩ | ⟨hn, rfl⟩ := execBuild_next h
  · exact ⟨c, l, execBuild_of_size hn, .inr ⟨rfl, rfl⟩, .inr ⟨rfl, rfl⟩⟩
  · exact ⟨c, l, execBuild_of_legal hn, .inr ⟨rfl, rfl⟩, .inr ⟨rfl, rfl⟩⟩

theorem readsNoTransient_buildStd : ReadsNoTransient execBuildStd := by
  intro s t c l h
  obtain ⟨hn, rfl⟩ | ⟨hn, rfl⟩ := execBuildStd_next h
  · exact ⟨c, l, execBuildStd_of_size hn, .inr ⟨rfl, rfl⟩, .inr ⟨rfl, rfl⟩⟩
  · exact ⟨c, l, execBuildStd_of_legal hn, .inr ⟨rfl, rfl⟩, .inr ⟨rfl, rfl⟩⟩

theorem readsNoTransient_appendCrc : ReadsNoTransient execAppendCrc := by
  intro s t c l h
  obtain ⟨hf, rfl⟩ | ⟨hf, hn, rfl⟩ := execAppendCrc_next h
  · exact ⟨c, l, execAppendCrc_of_not_built hf, .inr ⟨rfl, rfl⟩, .inr ⟨rfl, rfl⟩⟩
  · exact ⟨_, l, execAppendCrc_of_built hf hn, .inl rfl, .inr ⟨rfl, rfl⟩⟩

theorem readsNoTransient_crc : ReadsNoTransient execCrc := by
  intro s t c l h
  obtain ⟨hr, rfl⟩ | ⟨hr, rfl⟩ := execCrc_next h
  · exact ⟨c, l, execCrc_of_range hr, .inr ⟨rfl, rfl⟩, .inr ⟨rfl, rfl⟩⟩
  · exact ⟨_, l, execCrc_of_legal hr, .inl rfl, .inr ⟨rfl, rfl⟩⟩

theorem readsNoTransient_reverse : ReadsNoTransient execReverse := by
  intro s t c l h
  obtain ⟨hr, rfl⟩ | ⟨hr, rfl⟩ := execReverse_next h
  · exact ⟨c, l, execReverse_of_range hr, .inr ⟨rfl, rfl⟩, .inr ⟨rfl, rfl⟩⟩
  · exact ⟨c, l, execReverse_of_legal hr, .inr ⟨rfl, rfl⟩, .inr ⟨rfl, rfl⟩⟩

theorem readsNoTransient_whiten : ReadsNoTransient execWhiten := by
  intro s t c l h
  obtain ⟨hc, rfl⟩ | ⟨i, hc, hr, rfl⟩ | ⟨i, hc, hr, rfl⟩ := execWhiten_next h
  · exact ⟨c, l, execWhiten_of_chan hc, .inr ⟨rfl, rfl⟩, .inr ⟨rfl, rfl⟩⟩
  · exact ⟨c, l, execWhiten_of_range hc hr, .inr ⟨rfl, rfl⟩, .inr ⟨rfl, rfl⟩⟩
  · exact ⟨c, _, execWhiten_of_legal hc hr, .inr ⟨rfl, rfl⟩, .inl rfl⟩

theorem readsNoTransient_encode : ReadsNoTransient execEncode := by
  intro s t c l h
  obtain ⟨hf, rfl⟩ | ⟨hf, hc, rfl⟩ | ⟨i, hf, hc, hn, rfl⟩ := execEncode_next h
  · exact ⟨c, l, execEncode_of_not_prepared hf, .inr ⟨rfl, rfl⟩, .inr ⟨rfl, rfl⟩⟩
  · exact ⟨c, l, execEncode_of_chan hf hc, .inr ⟨rfl, rfl⟩, .inr ⟨rfl, rfl⟩⟩
  · exact ⟨c, _, execEncode_of_prepared hf hc hn, .inr ⟨rfl, rfl⟩, .inl rfl⟩

/-- Settles O35, command by command. -/
theorem transientRegistersAreNotRead : Obligations.TransientRegistersAreNotRead := by
  intro i
  cases i with
  | nop => exact readsNoTransient_nop
  | build => exact readsNoTransient_build
  | buildStd => exact readsNoTransient_buildStd
  | appendCrc => exact readsNoTransient_appendCrc
  | crc => exact readsNoTransient_crc
  | whiten => exact readsNoTransient_whiten
  | reverse => exact readsNoTransient_reverse
  | copy => exact readsNoTransient_copy
  | encode => exact readsNoTransient_encode
  | sreset => exact readsNoTransient_sreset

end Sys2Proof.Machine

/-! ## Reads and writes of one location

What a byte read returns at each address, and what a stored byte changes: its own location and no other. -/

namespace Sys2Proof.Machine

/-! ### Reads -/

theorem locate_fb : ∀ k : Fin 32, locate (0x60 + BitVec.ofNat 8 k) = .fb k := by decide

theorem State.memRead_of_locate (s : State) {a : Byte} {l : Loc} (h : locate a = l) : s.memRead a = s.load l :=
  congrArg s.load h

/-- Settles O6: a read's step only logs the byte, and each address reads what the location there loads. -/
theorem hostReadReturnsLocation : Obligations.HostReadReturnsLocation := by
  refine ⟨fun s a rest h => step_of_pending_rd h, fun s => ?_⟩
  have hchidx : (s.memRead 0x02).toNat = s.chidx.toNat := BitVec.toNat_setWidth_of_le (by decide)
  have hsel : (s.memRead 0x03).toNat = s.sel.toNat := BitVec.toNat_setWidth_of_le (by decide)
  have hlfsr : (s.memRead 0x0B).toNat = s.wlfsr.toNat := BitVec.toNat_setWidth_of_le (by decide)
  exact ⟨rfl, fun _ => s.memRead_of_reservedAddr, rfl, hchidx, hsel, rfl, rfl, rfl, rfl, rfl, rfl, rfl, hlfsr, rfl, rfl,
    fun i => s.memRead_of_locate (locate_mac i), fun i => s.memRead_of_locate (locate_name i),
    fun i => s.memRead_of_locate (locate_mfr i), fun i => s.memRead_of_locate (locate_ad i),
    fun k => s.memRead_of_locate (locate_fb k), fun k => s.memRead_of_locate (locate_tb k)⟩

/-! ### A stored byte -/

@[simp] theorem State.store_pending (s : State) (v : Byte) (l : Loc) : (s.store v l).pending = s.pending := by
  cases l <;> rfl

@[simp] theorem State.store_reads (s : State) (v : Byte) (l : Loc) : (s.store v l).reads = s.reads := by
  cases l <;> rfl

/-- The R/W locations that keep the whole byte: all but CHIDX and SEL (R48). -/
def Loc.storesByte : Loc → Bool
  | .start | .len | .adlen | .namelen | .mfrlen | .mac _ | .name _ | .mfr _ | .ad _ | .tb _ => true
  | _ => false

theorem storesByte_locate : ∀ a : Byte, FullByteAddr a → (locate a).storesByte = true := by decide

/-- A byte stored whole reads back. -/
theorem State.load_store_same {l : Loc} (h : l.storesByte = true) (s : State) (v : Byte) : (s.store v l).load l = v := by
  cases l with
  | start | len | adlen | namelen | mfrlen => rfl
  | mac i | name i | mfr i | ad i => exact Vector.getElem_set_self i.isLt
  | tb k => exact Memory.read_write_same _ _ _
  | _ => cases h

theorem Loc.toNat_addr_tb : ∀ k : Fin 32, (Loc.tb k).addr.toNat = 0x80 + k := by decide

/-- A store changes memory at the location's own address only. -/
theorem State.mem_read_store_of_ne {l : Loc} {n : Nat} (h : n ≠ l.addr.toNat) (s : State) (v : Byte) :
    (s.store v l).mem.read n = s.mem.read n := by
  cases l with
  | tb k => exact Memory.read_write_other _ _ (Loc.toNat_addr_tb k ▸ h)
  | _ => rfl

/-- A store keeps what every other location reads as. -/
theorem State.load_store_of_ne {l l' : Loc} (h : l' ≠ l) (s : State) (v : Byte) :
    (s.store v l).load l' = s.load l' := by
  have hne {n : Nat} {i j : Fin n} {f : Fin n → Loc} (h : f j ≠ f i) : i.val ≠ j.val :=
    fun hij => h (congrArg f (Fin.ext hij.symm))
  cases l with
  | chidx => cases l' with | chidx => exact absurd rfl h | _ => rfl
  | sel => cases l' with | sel => exact absurd rfl h | _ => rfl
  | start => cases l' with | start => exact absurd rfl h | _ => rfl
  | len => cases l' with | len => exact absurd rfl h | _ => rfl
  | adlen => cases l' with | adlen => exact absurd rfl h | _ => rfl
  | namelen => cases l' with | namelen => exact absurd rfl h | _ => rfl
  | mfrlen => cases l' with | mfrlen => exact absurd rfl h | _ => rfl
  | mac i => cases l' with | mac j => exact Vector.getElem_set_ne i.isLt j.isLt (hne h) | _ => rfl
  | name i => cases l' with | name j => exact Vector.getElem_set_ne i.isLt j.isLt (hne h) | _ => rfl
  | mfr i => cases l' with | mfr j => exact Vector.getElem_set_ne i.isLt j.isLt (hne h) | _ => rfl
  | ad i => cases l' with | ad j => exact Vector.getElem_set_ne i.isLt j.isLt (hne h) | _ => rfl
  | tb k =>
    cases l' with
    | fb j => exact State.mem_read_store_of_ne (by rw [Loc.toNat_addr_tb, Config.fbBase]; omega) s v
    | tb j =>
      have hkj : k.val ≠ j.val := hne h
      exact State.mem_read_store_of_ne (by rw [Loc.toNat_addr_tb, Config.tbBase]; omega) s v
    | _ => rfl
  | cmd | status | flen | crc0 | crc1 | crc2 | wlfsr | fb _ | reserved _ => rfl

/-- Different addresses hold different locations. -/
theorem locate_injective : Function.Injective locate :=
  Function.LeftInverse.injective locate_addr

theorem State.memRead_store_of_ne {a b : Byte} (h : b ≠ a) (s : State) (v : Byte) :
    (s.store v (locate a)).memRead b = s.memRead b :=
  State.load_store_of_ne (locate_injective.ne h) s v

/-! ### Writes -/

/-- A byte written outside CMD leaves the state to the next access with the byte stored. -/
theorem step_wr_of_ne_cmd {s : State} {a v : Byte} {rest : List Event} (ha : a ≠ 0x00)
    (h : s.pending = .wr a v :: rest) : step s = .next ((s.setPending rest).store v (locate a)) := by
  rw [step_of_pending_wr h, hostWrite_of_ne_cmd ha]

theorem step_wr_cmd_of_decode {s : State} {v : Byte} {rest : List Event} {i : Instr}
    (h : s.pending = .wr 0x00 v :: rest) (hv : decode v = .ok i) : step s = exec i (s.setPending rest) := by
  rw [step_of_pending_wr h, hostWrite, if_pos rfl, issue, hv]

theorem step_wr_cmd_of_illegal {s : State} {v : Byte} {rest : List Event} (h : s.pending = .wr 0x00 v :: rest)
    (hv : decode v = .error .illegalOpcode) : step s = .next ((s.setPending rest).failed .illegal) := by
  rw [step_of_pending_wr h, hostWrite, if_pos rfl, issue, hv, execIllegal, fail]

/-- What CHIDX keeps of a byte (R28). -/
theorem setWidth_two_setWidth : ∀ v : Byte, (v.setWidth 2).setWidth 8 = v &&& 0x03 := by decide

/-- What SEL keeps of a byte (R29). -/
theorem setWidth_one_setWidth : ∀ v : Byte, (v.setWidth 1).setWidth 8 = v &&& 0x01 := by decide

/-- Settles O7: a write to CMD issues the byte; any other stores it, and the laws of State.store say where. -/
theorem hostWriteStoresAtOneLocation : Obligations.HostWriteStoresAtOneLocation := by
  intro s a v rest h
  refine ⟨?cmd, ?chidx, ?sel, ?fullByte, fun ha => step_wr_of_ignored ha.symm h⟩
  case cmd =>
    rintro rfl
    exact ⟨fun _ => step_wr_cmd_of_decode h, step_wr_cmd_of_illegal h⟩
  case chidx =>
    rintro rfl
    exact ⟨v.setWidth 2, setWidth_two_setWidth v, step_wr_of_ne_cmd (by decide) h⟩
  case sel =>
    rintro rfl
    exact ⟨v.setWidth 1, setWidth_one_setWidth v, step_wr_of_ne_cmd (by decide) h⟩
  case fullByte =>
    intro ha
    have hl := storesByte_locate a ha
    have hne : a ≠ 0x00 := by rintro rfl; cases hl
    refine ⟨_, step_wr_of_ne_cmd hne h, by simp, by simp, State.load_store_same hl _ v, fun b hb => ?_, fun n hn => ?_⟩
    · rw [State.memRead_store_of_ne hb, State.memRead_setPending]
    · rw [State.mem_read_store_of_ne (by rwa [locate_addr]), State.setPending_mem]

end Sys2Proof.Machine

/-! ## The frame assembler

A memory that holds a byte sequence from an address on, taken apart along the sequence, and what FB holds after
BUILD, BUILD_STD and APPEND_CRC. -/

namespace Sys2Proof.Machine

/-! ### Byte sequences held in memory -/

/-- The bytes from an address on are those of a sequence. -/
def Memory.Holds (m : Memory) (a : Nat) (vs : List Byte) : Prop := m.readBytes a vs.length = vs

theorem Memory.holds_writeBytes (m : Memory) (a : Nat) (vs : List Byte) : (m.writeBytes a vs).Holds a vs :=
  m.readBytes_writeBytes a vs

@[simp] theorem Memory.holds_nil (m : Memory) (a : Nat) : m.Holds a [] := rfl

@[simp] theorem Memory.holds_cons {m : Memory} {a : Nat} {v : Byte} {vs : List Byte} :
    m.Holds a (v :: vs) ↔ m.read a = v ∧ m.Holds (a + 1) vs := by
  simp [Memory.Holds, Memory.readBytes]

@[simp] theorem Memory.holds_append {m : Memory} {a : Nat} {vs ws : List Byte} :
    m.Holds a (vs ++ ws) ↔ m.Holds a vs ∧ m.Holds (a + vs.length) ws := by
  induction vs generalizing a with
  | nil => simp
  | cons v vs ih => simp [ih, and_assoc, Nat.add_assoc, Nat.add_comm 1]

theorem Memory.Holds.read {m : Memory} {a : Nat} {vs : List Byte} (h : m.Holds a vs) {i : Nat} (hi : i < vs.length) :
    m.read (a + i) = vs[i] := by
  rw [← Memory.getElem_readBytes m a vs.length i (by simpa using hi)]
  exact List.getElem_of_eq h _

/-- Held bytes that start a register array are the array's. -/
theorem Memory.Holds.read_take {m : Memory} {a k n : Nat} {v : Vector Byte n} (h : m.Holds a (v.toList.take k))
    (i : Fin n) (hi : i.val < k) : m.read (a + i) = v[i] := by
  rw [h.read (i := i) (by simp [hi])]
  simp

theorem Memory.Holds.read_replicate {m : Memory} {a n : Nat} {v : Byte} (h : m.Holds a (List.replicate n v)) {b : Nat}
    (hlow : a ≤ b) (hhigh : b < a + n) : m.read b = v := by
  obtain ⟨i, rfl⟩ := Nat.exists_eq_add_of_le hlow
  rw [h.read (i := i) (by simp; omega), List.getElem_replicate]

/-! ### The assembled frame -/

/-- A memory that holds an assembled frame in FB holds its header, MAC, AD bytes and padding (R120). -/
theorem Memory.holds_assemble_iff {m : Memory} {mac ad : List Byte} (hmac : mac.length = 6) :
    m.Holds 0x60 (assemble mac ad) ↔
      m.read 0x60 = 0x42 ∧ m.read 0x61 = Byte.ofLength (6 + ad.length) ∧ m.Holds 0x62 mac ∧ m.Holds 0x68 ad ∧
        m.Holds (0x68 + ad.length) (List.replicate (24 - ad.length) 0x00) := by
  simp [assemble, hmac]

/-- A memory that holds the three AD structures of a name and a record holds them byte by byte (R126). -/
theorem Memory.holds_stdAd_iff {m : Memory} {f n : Byte} {name mfr : List Byte} :
    m.Holds 0x68 (stdAd f n name mfr) ↔
      m.read 0x68 = 0x02 ∧ m.read 0x69 = f ∧ m.read 0x6A = 0x05 ∧
        m.read 0x6B = Byte.ofLength (1 + name.length) ∧ m.read 0x6C = n ∧ m.Holds 0x6D name ∧
        m.read (0x6D + name.length) = Byte.ofLength (1 + mfr.length) ∧ m.read (0x6E + name.length) = 0xFF ∧
        m.Holds (0x6F + name.length) mfr := by
  simp [stdAd, Nat.add_right_comm]

/-- Memory m is that of s with the frame of some AD bytes in FB (R120, R122). -/
structure State.FrameIn (s : State) (ad : List Byte) (m : Memory) : Prop where
  pduType : m.read 0x60 = 0x42
  length : m.read 0x61 = Byte.ofLength (6 + ad.length)
  mac : ∀ i : Fin 6, m.read (0x62 + i) = s.mac[i]
  adBytes : m.Holds 0x68 ad
  padding : ∀ k, 8 + ad.length ≤ k → k < 32 → m.read (0x60 + k) = 0x00
  outside : ∀ a, a < 0x60 ∨ 0x80 ≤ a → m.read a = s.mem.read a

/-- Up to 21 AD bytes, the assembled frame fills FB and reaches no other byte. -/
theorem State.frameIn_memWithFb (s : State) {ad : List Byte} (h : ad.length ≤ 21) :
    s.FrameIn ad (s.memWithFb 0 (assemble s.macBytes ad)) := by
  obtain ⟨htype, hlen, hmac, had, hpad⟩ := (Memory.holds_assemble_iff s.length_macBytes).mp
    (s.mem.holds_writeBytes 0x60 (assemble s.macBytes ad))
  have hsize := length_assemble s.length_macBytes h
  exact ⟨htype, hlen, fun i => (hmac.read (by simp)).trans (by simp [State.macBytes]), had,
    fun k hlow hhigh => hpad.read_replicate (by omega) (by omega),
    fun a ha => Memory.read_writeBytes_outside _ (by rwa [hsize])⟩

/-! ### BUILD and BUILD_STD -/

/-- The state that BUILD and BUILD_STD end in (R122, R125). -/
theorem ok_buildFrame (s : State) {ad : List Byte} {n : Byte} (hn : Byte.ofLength (8 + ad.length) = n) :
    ok (s.buildFrame ad) = .next { s with
      fstate := .built, flen := n, mem := s.memWithFb 0 (assemble s.macBytes ad), err := .ok } := hn ▸ rfl

theorem ofLength_add_toNat (n : Nat) (v : Byte) : Byte.ofLength (n + v.toNat) = BitVec.ofNat 8 n + v := by
  simp [BitVec.ofNat_add]

/-- A length byte that counts the three AD structures (R126). -/
theorem State.ofLength_add_length_stdAd {s : State} (hname : s.namelen.toNat ≤ 6) (hmfr : s.mfrlen.toNat ≤ 8) (n : Nat)
    (f t : Byte) :
    Byte.ofLength (n + (stdAd f t s.nameBytes s.mfrBytes).length) =
      BitVec.ofNat 8 (n + 7) + s.namelen + s.mfrlen := by
  rw [length_stdAd, s.length_nameBytes hname, s.length_mfrBytes hmfr, ← Nat.add_assoc, ← Nat.add_assoc]
  simp [BitVec.ofNat_add]

/-- Settles O21: outside 1 to 21 AD bytes BUILD fails; else FB holds the frame of the AD bytes. -/
theorem buildAssemblesFrame : Obligations.BuildAssemblesFrame := by
  refine fun s => ⟨execBuild_of_size, fun hlow hhigh => ?_⟩
  have hlen := s.length_adBytes hhigh
  have hframe := s.frameIn_memWithFb (hlen.trans_le hhigh)
  exact ⟨_, (execBuild_of_legal ⟨hlow, hhigh⟩).trans (ok_buildFrame s (hlen ▸ ofLength_add_toNat 8 s.adlen)),
    hframe.pduType, hframe.length.trans (hlen ▸ ofLength_add_toNat 6 s.adlen), hframe.mac,
    hframe.adBytes.read_take, hlen ▸ hframe.padding, hframe.outside⟩

/-- Settles O22: past a legal NAMELEN and MFRLEN, FB holds the frame of the three AD structures (R126). -/
theorem buildStdAssemblesStandardFrame : Obligations.BuildStdAssemblesStandardFrame := by
  refine fun s => ⟨execBuildStd_of_size, fun hname hmfr => ?_⟩
  have hnameLen := s.length_nameBytes hname
  have hmfrLen := s.length_mfrBytes hmfr
  have hlen := length_stdAd Config.flagsAdType Config.nameAdType s.nameBytes s.mfrBytes
  rw [hnameLen, hmfrLen] at hlen
  have hlenByte := fun n => s.ofLength_add_length_stdAd hname hmfr n Config.flagsAdType Config.nameAdType
  have hframe := s.frameIn_memWithFb (hlen.trans_le (by omega))
  have hparts := Memory.holds_stdAd_iff.mp hframe.adBytes
  rw [hnameLen, hmfrLen, ofLength_add_toNat, ofLength_add_toNat] at hparts
  obtain ⟨hflagsLen, hflagsType, hflags, hnameCount, hnameType, hnameBytes, hmfrCount, hmfrType, hmfrBytes⟩ := hparts
  exact ⟨_, (execBuildStd_of_legal ⟨hname, hmfr⟩).trans (ok_buildFrame s (hlenByte 8)), hframe.pduType,
    hframe.length.trans (hlenByte 6), hframe.mac, hflagsLen, hflagsType, hflags, hnameCount, hnameType,
    hnameBytes.read_take, hmfrCount, hmfrType, hmfrBytes.read_take, fun k hlow => hframe.padding k (by omega),
    hframe.outside⟩

/-! ### APPEND_CRC -/

/-- Settles O23: outside BUILT it fails; else the three CRC bytes are all that memory gains (R129). -/
theorem appendCrcSealsFrame : Obligations.AppendCrcSealsFrame := by
  refine fun s => ⟨execAppendCrc_of_not_built, fun hf hn => ?_⟩
  have hflen : Byte.ofLength (s.flen.toNat + 3) = s.flen + 3 := by simp [BitVec.ofNat_add]
  have hexec := execAppendCrc_of_built hf hn
  rw [hflen] at hexec
  have hholds := s.mem.holds_writeBytes (0x60 + s.flen.toNat) (crc24 (s.fbBytes 0 s.flen.toNat)).bytes
  simp only [CrcReg.bytes, Memory.holds_cons, Nat.add_right_comm _ s.flen.toNat] at hholds
  obtain ⟨h0, h1, h2, -⟩ := hholds
  exact ⟨_, _, congrArg crc24 (s.frame_eq_fbBytes 0 s.flen.toNat).symm, hexec, h0, h1, h2,
    fun a ha => Memory.read_writeBytes_outside _ (by simp; omega)⟩

end Sys2Proof.Machine

/-! ## The CRC command -/

namespace Sys2Proof.Machine

/-- A legal range leaves the state with the range's CRC in CRC0..2 (R155). -/
theorem execCrc_eq_next_of_legal {s : State} (h : s.start.toNat + s.len.toNat ≤ 32) :
    execCrc s = .next { s with crc := crc24 s.crcInput, err := .ok } := by
  rw [execCrc_of_legal (s.rangeLegal_iff.mpr h), s.crcInput_eq_selectedBytes]
  rfl

theorem State.crcInput_of_len_eq_zero {s : State} (h : s.len = 0) : s.crcInput = [] := by
  simp [State.crcInput, h]

/-- Settles O24: the 9-bit range rule is the rule on numbers, and its two outcomes are those of the command. -/
theorem crcComputesSelectedRange : Obligations.CrcComputesSelectedRange := fun s =>
  ⟨fun h => execCrc_of_range (s.rangeLegal_eq_false_iff.mpr h), execCrc_eq_next_of_legal⟩

/-- Settles O25: an empty range is legal up to START 32, and the CRC of no bytes is CRC_INIT (R152). -/
theorem zeroLengthCrcGivesInitialValue : Obligations.ZeroLengthCrcGivesInitialValue := by
  intro s hlen hstart
  have hlegal : s.start.toNat + s.len.toNat ≤ 32 := by simpa [hlen] using hstart
  have hcrc := execCrc_eq_next_of_legal hlegal
  rwa [State.crcInput_of_len_eq_zero hlen, crc24_nil] at hcrc

end Sys2Proof.Machine

/-! ## Whitening -/

namespace Sys2Proof.Machine

/-- Bytes written to TB read back there, and no other address changes. -/
theorem State.memWithTb_fills_range (s : State) {k n : Nat} {vs : List Byte} (h : vs.length = n) :
    (s.memWithTb k vs).bytesFrom (0x80 + k) n = vs ∧
      ∀ a, a < 0x80 + k ∨ 0x80 + k + n ≤ a → (s.memWithTb k vs).read a = s.mem.read a := by
  subst h
  exact ⟨(Memory.bytesFrom_eq_readBytes ..).trans (s.mem.readBytes_writeBytes (0x80 + k) vs),
    fun _ => Memory.read_writeBytes_outside _⟩

/-- Settles O46: index 3 is no channel, which is the first check of WHITEN and the second of ENCODE (R233). -/
theorem channelSeedsAsStated : Obligations.ChannelSeedsAsStated := by
  refine ⟨rfl, rfl, rfl, fun _ => rfl, rfl, rfl, rfl, fun s h => ?_⟩
  have hchan := s.channel_eq_none_iff.mpr h
  exact ⟨execWhiten_of_chan hchan, fun hf => execEncode_of_chan hf hchan⟩

/-- Settles O26: the two failures in the order of R233; past them, the whitened bytes fill the range they came from. -/
theorem whitenWhitensRange : Obligations.WhitenWhitensRange := by
  intro s
  refine ⟨fun h => execWhiten_of_chan (s.channel_eq_none_iff.mpr h), fun h hrange => ?_, fun c h hrange => ?_⟩
  · obtain ⟨c, hc⟩ := Option.ne_none_iff_exists'.mp (mt s.channel_eq_none_iff.mp h)
    exact execWhiten_of_range hc (s.rangeLegal_eq_false_iff.mpr hrange)
  · have hexec := execWhiten_of_legal ((s.channel_eq_some_iff c).mpr h) (s.rangeLegal_iff.mpr hrange)
    have hlen := (length_whPass (whSeed c) s.tbRange).trans s.length_tbRange
    rw [s.tbInput_eq_tbRange]
    exact ⟨_, hexec, s.memWithTb_fills_range hlen⟩

end Sys2Proof.Machine

/-! ## Bit reversal -/

namespace Sys2Proof.Machine

/-- Bit i of rev8 is bit 7-i of the byte (R190): of the eight terms that rev8 joins, the one of bit 7-i alone reaches
bit i. -/
theorem getLsbD_rev8 (b : Byte) {i : Nat} (hi : i < 8) : (rev8 b).getLsbD i = b.getLsbD (7 - i) := by
  interval_cases i <;> simp [rev8]

/-- rev8 is its own inverse, because 7-(7-i) = i. -/
@[simp] theorem rev8_rev8 (b : Byte) : rev8 (rev8 b) = b := by
  apply BitVec.eq_of_getLsbD_eq
  intro i hi
  calc (rev8 (rev8 b)).getLsbD i
    _ = (rev8 b).getLsbD (7 - i) := getLsbD_rev8 _ hi
    _ = b.getLsbD (7 - (7 - i)) := getLsbD_rev8 _ (by omega)
    _ = b.getLsbD i := by rw [Nat.sub_sub_self (by omega)]

/-- Settles O42: the bit law holds for every byte, and the involution follows from it. -/
theorem rev8ReversesBits : Obligations.Rev8ReversesBits :=
  ⟨fun b _ => getLsbD_rev8 b, rev8_rev8, rfl, rfl⟩

/-- Settles O27: past the range rule, the reversed bytes fill the range they came from. -/
theorem reverseReversesRange : Obligations.ReverseReversesRange := by
  refine fun s => ⟨fun h => execReverse_of_range (s.rangeLegal_eq_false_iff.mpr h), fun h => ?_⟩
  have hexec := execReverse_of_legal (s.rangeLegal_iff.mpr h)
  have hlen : (s.tbRange.map rev8).length = s.len.toNat := (List.length_map _).trans s.length_tbRange
  rw [s.tbInput_eq_tbRange]
  exact ⟨_, hexec, s.memWithTb_fills_range hlen⟩

end Sys2Proof.Machine

/-! ## The transmit path

The control commands and COPY, and what ENCODE leaves: all 32 bytes of TB are written whole, from FB alone, so an
ENCODE after another one leaves no trace of it. -/

namespace Sys2Proof.Machine

/-! ### NOP and the illegal opcodes -/

/-- Settles O20: NOP's meaning is ok() over the state itself (R200). -/
theorem nopClearsErrorCode : Obligations.NopClearsErrorCode := fun _ => rfl

/-- Past the last opcode every byte is illegal (R94). -/
theorem decode_of_ge_ten : ∀ v : Byte, 0x0A ≤ v.toNat → decode v = .error .illegalOpcode := by decide

/-- Settles O5: such a byte does not decode, so the write to CMD answers fail(ILLEGAL). -/
theorem illegalOpcodeOnlySetsStatus : Obligations.IllegalOpcodeOnlySetsStatus :=
  ⟨rfl, fun _ v _ h hv => step_wr_cmd_of_illegal h (decode_of_ge_ten v hv)⟩

/-! ### COPY -/

/-- Settles O28: TB holds the 32 bytes of FB, the only ones written. -/
theorem copyCopiesWholeBuffer : Obligations.CopyCopiesWholeBuffer := by
  intro s
  have hlen := s.length_fbBytes 0 32
  have hholds : (s.memWithTb 0 (s.fbBytes 0 32)).Holds 0x80 (s.fbBytes 0 32) := s.mem.holds_writeBytes 0x80 _
  refine ⟨s.memWithTb 0 (s.fbBytes 0 32), rfl, fun k hk => ?_, (s.memWithTb_fills_range (k := 0) hlen).2⟩
  rw [hholds.read (hlen.symm ▸ hk)]
  exact s.mem.getElem_readBytes ..

/-! ### ENCODE -/

/-- TB takes the whitened bytes of a pass, each reversed, and WLFSR its final LFSR (R202). -/
def State.transmit (pass : List Byte × BitVec 7) (s : State) : State :=
  ((s.setMem (s.memWithTb 0 (encodedBuffer pass.1))).setWlfsr pass.2).succeeded

/-- The state in which ENCODE ends a PREPARED frame on a channel (R202). -/
def State.encoded (s : State) (c : Fin 3) : State := s.transmit (whPass (whSeed c) (s.fbBytes 0 s.flen.toNat))

theorem execEncode_eq_encoded {s : State} {c : Fin 3} (hf : s.fstate = .prepared) (hc : s.channel = some c)
    (hn : s.flen.toNat ≤ 32) : execEncode s = .next (s.encoded c) := execEncode_of_prepared hf hc hn

/-- A memory that holds the encoded bytes in TB holds the reversed bytes and zeros after them (R202). -/
theorem Memory.holds_encodedBuffer_iff {m : Memory} {w : List Byte} :
    m.Holds 0x80 (encodedBuffer w) ↔
      m.Holds 0x80 (w.map rev8) ∧ m.Holds (0x80 + w.length) (List.replicate (32 - w.length) 0x00) := by
  simp [encodedBuffer]

/-- Settles O29: the two failures in the order of R233; past them, TB holds the encoded bytes, the only ones
written. -/
theorem encodeEncodesPreparedFrame : Obligations.EncodeEncodesPreparedFrame := by
  refine fun s => ⟨execEncode_of_not_prepared, fun hf h => execEncode_of_chan hf (s.channel_eq_none_iff.mpr h),
    fun c hf hc hn => ?_⟩
  have hexec := execEncode_of_prepared hf ((s.channel_eq_some_iff c).mpr hc) hn
  rw [s.frame_eq_fbBytes]
  have hlen := (length_whPass (whSeed c) (s.fbBytes 0 s.flen.toNat)).trans (s.length_fbBytes 0 _)
  obtain ⟨hframe, hzeros⟩ := Memory.holds_encodedBuffer_iff.mp (s.mem.holds_writeBytes 0x80 (encodedBuffer
    (whPass (whSeed c) (s.fbBytes 0 s.flen.toNat)).1))
  rw [Memory.Holds, List.length_map, hlen] at hframe
  rw [hlen] at hzeros
  exact ⟨_, hexec, (Memory.bytesFrom_eq_readBytes ..).trans hframe,
    fun k hlow hhigh => hzeros.read_replicate (by omega) (by omega),
    (s.memWithTb_fills_range (k := 0) (length_encodedBuffer (hlen.trans_le hn))).2⟩

/-! ### ENCODE again -/

/-- Encoding a frame leaves FB alone (R204). -/
theorem State.fbByte_encoded (s : State) (c : Fin 3) {k : Nat} (hk : k < 32) :
    (s.encoded c).fbByte k = s.fbByte k :=
  (s.memWithTb_fills_range rfl).2 (0x60 + k) (.inl (by omega))

/-- An encoded frame is still there to be encoded. -/
theorem State.fbBytes_encoded (s : State) (c : Fin 3) {n : Nat} (hn : n ≤ 32) :
    (s.encoded c).fbBytes 0 n = s.fbBytes 0 n :=
  Memory.readBytes_congr fun _ hi => s.fbByte_encoded c (hi.trans_le hn)

/-- Bytes written over as many others leave no trace of them. -/
theorem Memory.writeBytes_writeBytes {m : Memory} (h : m.wf = true) (a : Nat) {vs ws : List Byte}
    (hlen : vs.length = ws.length) : (m.writeBytes a vs).writeBytes a ws = m.writeBytes a ws := by
  refine Memory.ext_of_read (Memory.wf_writeBytes a ws (Memory.wf_writeBytes a vs h)) (Memory.wf_writeBytes a ws h)
    fun b => ?_
  by_cases hb : a ≤ b ∧ b < a + ws.length
  · simp only [Memory.read_writeBytes, dif_pos hb]
  · have hout : b < a ∨ a + ws.length ≤ b := by omega
    rw [Memory.read_writeBytes_outside _ hout, Memory.read_writeBytes_outside _ hout,
      Memory.read_writeBytes_outside _ (hlen ▸ hout)]

/-- A transmission is not seen after the next one, which writes all of TB. -/
theorem State.transmit_transmit {s : State} (hm : s.mem.wf = true) {p q : List Byte × BitVec 7}
    (hp : p.1.length ≤ 32) (hq : q.1.length ≤ 32) : (s.transmit p).transmit q = s.transmit q := by
  have hmem := Memory.writeBytes_writeBytes hm 0x80
    ((length_encodedBuffer hp).trans (length_encodedBuffer hq).symm)
  exact congrArg (fun m => ((s.setMem m).setWlfsr q.2).succeeded) hmem

/-- An ENCODE is not seen after the next one (R204), because it left alone the frame in FB that this one reads. -/
theorem State.encoded_encoded {s : State} (hm : s.mem.wf = true) (hn : s.flen.toNat ≤ 32) (c d : Fin 3) :
    (s.encoded c).encoded d = s.encoded d := by
  have hlen (c : Fin 3) : (whPass (whSeed c) (s.fbBytes 0 s.flen.toNat)).1.length ≤ 32 := by simpa using hn
  calc (s.encoded c).encoded d
    _ = (s.encoded c).transmit (whPass (whSeed d) (s.fbBytes 0 s.flen.toNat)) :=
      congrArg (fun bytes => (s.encoded c).transmit (whPass (whSeed d) bytes)) (s.fbBytes_encoded c hn)
    _ = s.encoded d := State.transmit_transmit hm (hlen c) (hlen d)

/-- ENCODE keeps FB's frame, however it ends (R204). -/
theorem execEncode_keeps_frame {s t : State} (h : execEncode s = .next t) :
    t.fstate = s.fstate ∧ t.flen = s.flen ∧ ∀ k, k < 32 → t.fbByte k = s.fbByte k := by
  obtain ⟨-, rfl⟩ | ⟨-, -, rfl⟩ | ⟨c, -, -, -, rfl⟩ := execEncode_next h
  · exact ⟨rfl, rfl, fun _ _ => rfl⟩
  · exact ⟨rfl, rfl, fun _ _ => rfl⟩
  · exact ⟨rfl, rfl, fun _ => s.fbByte_encoded c⟩

/-- Settles O50: each later ENCODE starts from an encoded state, and answers what it would without the one before. -/
theorem encodeIsRepeatable : Obligations.EncodeIsRepeatable := by
  refine ⟨fun s t => execEncode_keeps_frame, fun s x hinv hf hs hx => ?_⟩
  obtain ⟨-, -, hlen, -, -, -, hwf, -⟩ := hinv
  have hn : s.flen.toNat ≤ 32 := (hlen hf).2
  obtain ⟨c, hc⟩ := Option.ne_none_iff_exists'.mp (mt s.channel_eq_none_iff.mp hs)
  obtain ⟨d, hd⟩ := Option.ne_none_iff_exists'.mp (mt (State.channel_eq_none_iff { s with chidx := x }).mp hx)
  have hfirst : execEncode s = .next (s.encoded c) := execEncode_eq_encoded hf hc hn
  have hagain : execEncode (s.encoded c) = .next ((s.encoded c).encoded c) := execEncode_eq_encoded hf hc hn
  have hother : execEncode ({ s with chidx := x }.encoded c) = .next (({ s with chidx := x }.encoded c).encoded d) :=
    execEncode_eq_encoded hf hd hn
  have hback : execEncode (s.encoded d) = .next ((s.encoded d).encoded c) := execEncode_eq_encoded hf hc hn
  rw [State.encoded_encoded hwf hn] at hagain hback
  rw [State.encoded_encoded (s := { s with chidx := x }) hwf hn] at hother
  exact ⟨_, _, hfirst, hagain, hother, hback⟩

end Sys2Proof.Machine

/-! ## Nothing in between

A command's next state is its success or the state before it with a failure noted (R230). -/

namespace Sys2Proof.Machine

/-- Settles O16: by the two ways a command leaves STATUS, a failed state being the one before with ERR and ERRSEEN set. -/
theorem failingCommandOnlySetsStatus : Obligations.FailingCommandOnlySetsStatus := by
  intro i s t h
  obtain ⟨c, hc, rfl⟩ | ⟨hok, -⟩ := exec_next_status h
  · exact .inr ⟨hc, rfl⟩
  · exact .inl hok

end Sys2Proof.Machine

/-! ## Decoding and encoding -/

namespace Sys2Proof

/-- A byte decodes to a command by a row of the opcode map that it matches (R92, R95). -/
theorem exists_row_of_decode {v : Byte} {i : Instr} (h : decode v = .ok i) :
    ∃ r ∈ opcodeMap, v &&& r.mask = r.pattern ∧ r.instr = i := by
  unfold decode at h
  split at h
  · next r hr =>
    exact ⟨r, List.mem_of_find?_eq_some hr, by simpa using List.find?_some hr, by simpa using h⟩
  · cases h

/-- Every row matches all eight bits, against its own command's byte (R91, R92). -/
theorem opcodeMap_row : ∀ r ∈ opcodeMap, r.mask = BitVec.allOnes 8 ∧ encode r.instr = r.pattern := by decide

theorem decode_encode (i : Instr) : decode (encode i) = .ok i := by cases i <;> rfl

/-- A byte that decodes is the command's byte: the row it matches leaves no bit open. -/
theorem encode_of_decode {v : Byte} {i : Instr} (h : decode v = .ok i) : encode i = v := by
  obtain ⟨r, hr, hv, rfl⟩ := exists_row_of_decode h
  obtain ⟨hmask, hencode⟩ := opcodeMap_row r hr
  rw [hencode, ← hv, hmask, BitVec.and_allOnes]

/-- Settles O2: by the opcode's table one way, and by the row that matches the other. -/
theorem decodeInvertsEncode : Obligations.DecodeInvertsEncode :=
  ⟨fun i _ => decode_encode i, fun _ _ => encode_of_decode⟩

/-- Settles O1: ten rows, and no row past the last opcode. -/
theorem commandBytesDecode : Obligations.CommandBytesDecode :=
  ⟨rfl, rfl, rfl, rfl, rfl, rfl, rfl, rfl, rfl, rfl, Machine.decode_of_ge_ten⟩

/-- A byte numbered as a table word of eight bits is itself. -/
theorem tableWordByte_toNat (v : Byte) : tableWordByte 8 v.toNat = v := by
  rw [tableWordByte, Nat.mod_eq_of_lt v.isLt, BitVec.ofNat_toNat, BitVec.setWidth_eq]

theorem decodeTableWord_encode (i : Instr) : decodeTableWord 8 (encode i).toNat = some i := by
  rw [decodeTableWord, tableWordByte_toNat, decode_encode]

end Sys2Proof

/-! ## One step of each kind -/

namespace Sys2Proof.Machine

/-- Settles O3: the access is the CMD write of a byte that decodes. -/
theorem stepRunsIssuedCommand : Obligations.StepRunsIssuedCommand := fun _ _ _ _ => step_wr_cmd_of_decode

/-- Settles O4: withFetchWord places the CMD write of the command's byte before the pending accesses. -/
theorem fetchedCommandRuns : Obligations.FetchedCommandRuns := by
  refine fun s i _ => ⟨decodeTableWord_encode i, ?_⟩
  have hpending : (s.withFetchWord 8 (encode i).toNat).pending = .wr 0x00 (encode i) :: s.pending := by
    rw [State.withFetchWord, fetchEvent, tableWordByte_toNat, State.setPending_pending]
  exact step_wr_cmd_of_decode hpending (decode_encode i)

theorem serveOp_read_of_wide {w : Nat} (hw : w ≠ 1) (a : Byte) (s : State) :
    serveOp (.read a w) s = .refused .accessWidth := if_neg hw

theorem serveOp_write_of_wide {d : List Byte} (hd : d.length ≠ 1) (a : Byte) (s : State) :
    serveOp (.write a d) s = .refused .accessWidth := by
  match d with
  | [] => rfl
  | [_] => exact absurd rfl hd
  | _ :: _ :: _ => rfl

theorem serve_access_of_second_host {m : Nat} (hm : m ≠ 0) (op : BusOp) (s : State) :
    serve (.access m op) s = .refused .secondHost := if_neg hm

/-- Settles O9: the step serves the access, and each kind is refused where its check stands. -/
theorem wideAndSecondHostAccessesRefused : Obligations.WideAndSecondHostAccessesRefused := fun _ _ a =>
  ⟨fun _ hw h => (step_of_pending h).trans (serveOp_read_of_wide hw a _),
    fun _ hd h => (step_of_pending h).trans (serveOp_write_of_wide hd a _),
    fun _ op hm h => (step_of_pending h).trans (serve_access_of_second_host hm op _)⟩

theorem step_of_pending_nil {s : State} (h : s.pending = []) : step s = .next s := by
  simp only [step, serveNext, h]

/-- Settles O10: with nothing pending there is nothing to serve. -/
theorem idleBlockKeepsItsState : Obligations.IdleBlockKeepsItsState := fun _ => step_of_pending_nil

/-- Settles O14: both are resetBlock, of the state and of the state with the event removed. -/
theorem sresetIsHardwareReset : Obligations.SresetIsHardwareReset :=
  ⟨fun _ => rfl, fun _ _ => step_of_pending_reset⟩

/-- The three fields of STATUS share no bit, so joining them adds them up (R24). -/
theorem toNat_status (s : State) :
    s.status.toNat = 32 * (if s.errSeen then 1 else 0) + 4 * s.err.code.toNat + s.fstate.code.toNat := by
  unfold State.status
  cases s.errSeen <;> cases s.err <;> cases s.fstate <;> rfl

theorem toNat_code_err_le (e : ErrCode) : e.code.toNat ≤ 5 := by cases e <;> decide

theorem toNat_code_fstate_le (f : FState) : f.code.toNat ≤ 2 := by cases f <;> decide

theorem toNat_status_lt (s : State) : s.status.toNat < 64 := by
  have herr := toNat_code_err_le s.err
  have hfstate := toNat_code_fstate_le s.fstate
  rw [toNat_status]
  split <;> omega

/-- Settles O15: STATUS is read whole, and its fields add up. -/
theorem statusByteLayout : Obligations.StatusByteLayout :=
  ⟨fun s => ⟨toNat_status s, toNat_status_lt s⟩, rfl, rfl, rfl, rfl, rfl, rfl, rfl, rfl, rfl⟩

/-! ### The two stops -/

theorem execAppendCrc_of_overlong {s : State} (hf : s.fstate = .built) (hn : 29 < s.flen.toNat) :
    execAppendCrc s = .fault .bufferOverrun := by
  simp only [execAppendCrc, hf]
  exact if_pos (by simp only [Config.bufferCap]; omega)

theorem execEncode_of_overlong {s : State} {c : Fin 3} (hf : s.fstate = .prepared) (hc : s.channel = some c)
    (hn : 32 < s.flen.toNat) : execEncode s = .fault .bufferOverrun := by
  simp only [execEncode, hf, hc]
  exact if_pos hn

/-- An index other than 3 is a channel's (R170). -/
theorem State.exists_channel {s : State} (h : s.chidx ≠ 3) : ∃ c, s.channel = some c :=
  Option.ne_none_iff_exists'.mp (mt s.channel_eq_none_iff.mp h)

/-- Settles O30: each command's last check fails on such a length (log entry 7). -/
theorem overlongFrameStopsByName : Obligations.OverlongFrameStopsByName := by
  refine fun s => ⟨execAppendCrc_of_overlong, fun hf hs hn => ?_⟩
  obtain ⟨c, hc⟩ := State.exists_channel hs
  exact execEncode_of_overlong hf hc hn

/-- Settles O37: the reset state is one closed term, whose invariants are decided. -/
theorem resetMeetsInvariants : Obligations.ResetMeetsInvariants := by
  unfold Obligations.ResetMeetsInvariants
  decide

end Sys2Proof.Machine

/-! ## The frame, and what each step does to it

A step leaves the frame in FB alone, clears it with everything else, builds one, or seals one with its CRC: each
statement about frames is four cases. -/

namespace Sys2Proof.Machine

/-! ### Commands that keep the frame -/

/-- The frame in FB, its state and its length, are the same in both. -/
structure State.SameFrame (s t : State) : Prop where
  fstate : t.fstate = s.fstate
  flen : t.flen = s.flen
  fbByte : ∀ k, k < 32 → t.fbByte k = s.fbByte k

theorem State.sameFrame_of_mem {s t : State} (hf : t.fstate = s.fstate) (hn : t.flen = s.flen) (hm : t.mem = s.mem) :
    s.SameFrame t := ⟨hf, hn, fun _ _ => by rw [State.fbByte, hm, State.fbByte]⟩

/-- What a write to TB, wherever it ends, leaves of FB. -/
theorem State.sameFrame_of_memWithTb {s t : State} {k : Nat} {vs : List Byte} (hf : t.fstate = s.fstate)
    (hn : t.flen = s.flen) (hm : t.mem = s.memWithTb k vs) : s.SameFrame t :=
  ⟨hf, hn, fun j hj => by
    rw [State.fbByte, hm]
    exact (s.memWithTb_fills_range rfl).2 _ (.inl (by simp only [Config.fbBase]; omega))⟩

theorem State.SameFrame.fbBytes {s t : State} (h : s.SameFrame t) {k n : Nat} (hn : k + n ≤ 32) :
    t.fbBytes k n = s.fbBytes k n := by
  refine Memory.readBytes_congr fun i hi => ?_
  simpa only [State.fbByte, Nat.add_assoc] using h.fbByte (k + i) (by omega)

/-- The commands other than BUILD, BUILD_STD, APPEND_CRC and SRESET write no byte below TB (R42). -/
theorem exec_sameFrame {i : Instr} {s t : State} (h : exec i s = .next t) (hbuild : i ≠ .build)
    (hbuildStd : i ≠ .buildStd) (happend : i ≠ .appendCrc) (hreset : i ≠ .sreset) : s.SameFrame t := by
  cases i with
  | build => exact absurd rfl hbuild
  | buildStd => exact absurd rfl hbuildStd
  | appendCrc => exact absurd rfl happend
  | sreset => exact absurd rfl hreset
  | nop => obtain rfl := execNop_next h; exact State.sameFrame_of_mem rfl rfl rfl
  | copy => obtain rfl := execCopy_next h; exact State.sameFrame_of_memWithTb rfl rfl rfl
  | crc => obtain ⟨-, rfl⟩ | ⟨-, rfl⟩ := execCrc_next h <;> exact State.sameFrame_of_mem rfl rfl rfl
  | reverse =>
    obtain ⟨-, rfl⟩ | ⟨-, rfl⟩ := execReverse_next h
    · exact State.sameFrame_of_mem rfl rfl rfl
    · exact State.sameFrame_of_memWithTb rfl rfl rfl
  | whiten =>
    obtain ⟨-, rfl⟩ | ⟨c, -, -, rfl⟩ | ⟨c, -, -, rfl⟩ := execWhiten_next h
    · exact State.sameFrame_of_mem rfl rfl rfl
    · exact State.sameFrame_of_mem rfl rfl rfl
    · exact State.sameFrame_of_memWithTb rfl rfl rfl
  | encode =>
    obtain ⟨hf, hn, hk⟩ := execEncode_keeps_frame h
    exact ⟨hf, hn, hk⟩

/-- Settles O31: the frame is the same before and after any other command. -/
theorem frameChangesOnlyByItsWriters : Obligations.FrameChangesOnlyByItsWriters := by
  intro i s t h hbuild hbuildStd happend hreset
  obtain ⟨hf, hn, hk⟩ := exec_sameFrame h hbuild hbuildStd happend hreset
  exact ⟨hf, hn, hk⟩

/-! ### What a command and a step do to the frame -/

/-- The state in which APPEND_CRC ends a BUILT frame (R128). -/
def State.sealed (s : State) : State :=
  ((s.setFrame .prepared (Byte.ofLength (s.flen.toNat + 3))
    (s.memWithFb s.flen.toNat (crc24 (s.fbBytes 0 s.flen.toNat)).bytes)).setCrc
      (crc24 (s.fbBytes 0 s.flen.toNat))).succeeded

/-- The four things that can become of the frame on the way from s to t. -/
inductive FrameFate (s t : State) : Prop where
  | kept (h : s.SameFrame t)
  | cleared (h : t = s.resetBlock)
  | built (ad : List Byte) (hlow : 1 ≤ ad.length) (hhigh : ad.length ≤ 21) (h : t = (s.buildFrame ad).succeeded)
  | sealed (hf : s.fstate = .built) (hn : s.flen.toNat ≤ 29) (h : t = s.sealed)

/-- A name and a record of legal lengths make at most 21 AD bytes. -/
theorem length_stdAd_le {s : State} (hname : s.namelen.toNat ≤ 6) (hmfr : s.mfrlen.toNat ≤ 8) {f n : Byte} :
    (stdAd f n s.nameBytes s.mfrBytes).length ≤ 21 := by
  rw [length_stdAd, s.length_nameBytes hname, s.length_mfrBytes hmfr]
  omega

theorem exec_frameFate {i : Instr} {s t : State} (h : exec i s = .next t) : FrameFate s t := by
  cases i with
  | build =>
    obtain ⟨-, rfl⟩ | ⟨⟨hlow, hhigh⟩, rfl⟩ := execBuild_next h
    · exact .kept (State.sameFrame_of_mem rfl rfl rfl)
    · have hlen := s.length_adBytes hhigh
      exact .built _ (by omega) (by omega) rfl
  | buildStd =>
    obtain ⟨-, rfl⟩ | ⟨⟨hname, hmfr⟩, rfl⟩ := execBuildStd_next h
    · exact .kept (State.sameFrame_of_mem rfl rfl rfl)
    · exact .built _ (by rw [length_stdAd]; omega) (length_stdAd_le hname hmfr) rfl
  | appendCrc =>
    obtain ⟨-, rfl⟩ | ⟨hf, hn, rfl⟩ := execAppendCrc_next h
    · exact .kept (State.sameFrame_of_mem rfl rfl rfl)
    · exact .sealed hf hn rfl
  | sreset => exact .cleared (execSreset_next h)
  | nop | copy | crc | reverse | whiten | encode =>
    exact .kept (exec_sameFrame h (by decide) (by decide) (by decide) (by decide))

theorem State.sameFrame_store (s : State) (v : Byte) (l : Loc) : s.SameFrame (s.store v l) := by
  cases l with
  | tb k => exact State.sameFrame_of_memWithTb rfl rfl rfl
  | _ => exact ⟨rfl, rfl, fun _ _ => rfl⟩

theorem hostWrite_frameFate {a v : Byte} {s t : State} (h : hostWrite a v s = .next t) : FrameFate s t := by
  obtain ⟨i, -, -, hexec⟩ | ⟨-, -, rfl⟩ | ⟨-, rfl⟩ := hostWrite_next h
  · exact exec_frameFate hexec
  · exact .kept (State.sameFrame_of_mem rfl rfl rfl)
  · exact .kept (s.sameFrame_store v _)

/-- Whatever is served does one of the four to the frame. -/
theorem serve_frameFate {e : Event} {s t : State} (h : serve e s = .next t) : FrameFate s t := by
  obtain ⟨-, rfl⟩ | ⟨a, -, rfl⟩ | ⟨a, v, -, hw⟩ := serve_next h
  · exact .cleared rfl
  · exact .kept (State.sameFrame_of_mem rfl rfl rfl)
  · exact hostWrite_frameFate hw

/-! ### The memory form -/

/-- A write inside FB keeps the memory form (log entry 5). -/
theorem State.memoryForm_of_memWithFb {s t : State} (h : s.MemoryForm) {k : Nat} {vs : List Byte}
    (hm : t.mem = s.memWithFb k vs) (hn : k + vs.length ≤ 32) : t.MemoryForm := by
  rw [State.MemoryForm, hm]
  exact ⟨Memory.wf_writeBytes _ vs h.1, Memory.inBuffers_writeBytes (a := 0x60 + k) (by omega) (by omega) h.2⟩

/-- A write inside TB keeps the memory form (log entry 5). -/
theorem State.memoryForm_of_memWithTb {s t : State} (h : s.MemoryForm) {k : Nat} {vs : List Byte}
    (hm : t.mem = s.memWithTb k vs) (hn : k + vs.length ≤ 32) : t.MemoryForm := by
  rw [State.MemoryForm, hm]
  exact ⟨Memory.wf_writeBytes _ vs h.1, Memory.inBuffers_writeBytes (a := 0x80 + k) (by omega) (by omega) h.2⟩

theorem State.memoryForm_store {s : State} (h : s.MemoryForm) (v : Byte) (l : Loc) : (s.store v l).MemoryForm := by
  cases l with
  | tb k => exact State.memoryForm_of_memWithTb h rfl k.isLt
  | _ => exact h

theorem State.memoryForm_buildFrame {s : State} (h : s.MemoryForm) {ad : List Byte} (hhigh : ad.length ≤ 21) :
    (s.buildFrame ad).succeeded.MemoryForm :=
  State.memoryForm_of_memWithFb h rfl (by rw [length_assemble s.length_macBytes hhigh])

theorem State.memoryForm_sealed {s : State} (h : s.MemoryForm) (hn : s.flen.toNat ≤ 29) : s.sealed.MemoryForm :=
  State.memoryForm_of_memWithFb h rfl (by rw [CrcReg.length_bytes]; omega)

theorem State.memoryForm_resetBlock (s : State) : s.resetBlock.MemoryForm := ⟨rfl, rfl⟩

/-- Every command writes inside the buffers. -/
theorem exec_memoryForm {i : Instr} {s t : State} (hs : s.MemoryForm) (h : exec i s = .next t) : t.MemoryForm := by
  cases i with
  | nop => obtain rfl := execNop_next h; exact hs
  | copy =>
    obtain rfl := execCopy_next h
    exact State.memoryForm_of_memWithTb hs rfl (by simp)
  | sreset => obtain rfl := execSreset_next h; exact s.memoryForm_resetBlock
  | crc => obtain ⟨-, rfl⟩ | ⟨-, rfl⟩ := execCrc_next h <;> exact hs
  | reverse =>
    obtain ⟨-, rfl⟩ | ⟨hr, rfl⟩ := execReverse_next h
    · exact hs
    · exact State.memoryForm_of_memWithTb hs rfl (by simpa using s.rangeLegal_iff.mp hr)
  | whiten =>
    obtain ⟨-, rfl⟩ | ⟨c, -, -, rfl⟩ | ⟨c, -, hr, rfl⟩ := execWhiten_next h
    · exact hs
    · exact hs
    · exact State.memoryForm_of_memWithTb hs rfl (by simpa using s.rangeLegal_iff.mp hr)
  | encode =>
    obtain ⟨-, rfl⟩ | ⟨-, -, rfl⟩ | ⟨c, -, -, hn, rfl⟩ := execEncode_next h
    · exact hs
    · exact hs
    · exact State.memoryForm_of_memWithTb hs rfl (by rw [length_encodedBuffer (by simpa using hn)])
  | build =>
    obtain ⟨-, rfl⟩ | ⟨⟨-, hhigh⟩, rfl⟩ := execBuild_next h
    · exact hs
    · exact State.memoryForm_buildFrame hs ((s.length_adBytes hhigh).trans_le hhigh)
  | buildStd =>
    obtain ⟨-, rfl⟩ | ⟨⟨hname, hmfr⟩, rfl⟩ := execBuildStd_next h
    · exact hs
    · exact State.memoryForm_buildFrame hs (length_stdAd_le hname hmfr)
  | appendCrc =>
    obtain ⟨-, rfl⟩ | ⟨-, hn, rfl⟩ := execAppendCrc_next h
    · exact hs
    · exact State.memoryForm_sealed hs hn

theorem serve_memoryForm {e : Event} {s t : State} (hs : s.MemoryForm) (h : serve e s = .next t) : t.MemoryForm := by
  obtain ⟨-, rfl⟩ | ⟨a, -, rfl⟩ | ⟨a, v, -, hw⟩ := serve_next h
  · exact s.memoryForm_resetBlock
  · exact hs
  · obtain ⟨i, -, -, hexec⟩ | ⟨-, -, rfl⟩ | ⟨-, rfl⟩ := hostWrite_next hw
    · exact exec_memoryForm hs hexec
    · exact hs
    · exact State.memoryForm_store hs v _

/-! ### The invariants of a frame -/

/-- What R44 says of the frame: the invariants but the narrow registers' and the memory form's. -/
structure State.FrameInv (s : State) : Prop where
  empty : s.EmptyLength
  built : s.BuiltLength
  prepared : s.PreparedLength
  crc : s.PreparedCrc
  padding : s.ZeroPadding

/-- The narrow registers have no bits that could read as 1 (V3, V4, log entry 6). -/
theorem State.narrowBits (s : State) : s.NarrowBits := by
  have hlfsr : ∀ l : BitVec 7, l.setWidth 8 &&& 0x80 = 0 := by decide
  have hchidx : ∀ c : BitVec 2, c.setWidth 8 &&& 0xFC = 0 := by decide
  have hsel : ∀ b : BitVec 1, b.setWidth 8 &&& 0xFE = 0 := by decide
  exact ⟨hlfsr s.wlfsr, hchidx s.chidx, hsel s.sel⟩

theorem State.inv_iff (s : State) : s.Inv ↔ s.FrameInv ∧ s.MemoryForm := by
  constructor
  · rintro ⟨hempty, hbuilt, hprepared, hcrc, hpadding, -, hmem⟩
    exact ⟨⟨hempty, hbuilt, hprepared, hcrc, hpadding⟩, hmem⟩
  · rintro ⟨⟨hempty, hbuilt, hprepared, hcrc, hpadding⟩, hmem⟩
    exact ⟨hempty, hbuilt, hprepared, hcrc, hpadding, s.narrowBits, hmem⟩

theorem State.FrameInv.of_sameFrame {s t : State} (hs : s.FrameInv) (h : s.SameFrame t) : t.FrameInv where
  empty := by rw [State.EmptyLength, h.fstate, h.flen]; exact hs.empty
  built := by rw [State.BuiltLength, h.fstate, h.flen]; exact hs.built
  prepared := by rw [State.PreparedLength, h.fstate, h.flen]; exact hs.prepared
  crc := by
    intro hf
    rw [h.fstate] at hf
    obtain ⟨hlow, hhigh⟩ := hs.prepared hf
    rw [h.flen, h.fbBytes (by omega), h.fbBytes (by omega)]
    exact hs.crc hf
  padding k hk hn := (h.fbByte k hk).trans (hs.padding k hk (h.flen ▸ hn))

theorem State.frameInv_resetBlock (s : State) : s.resetBlock.FrameInv where
  empty _ := rfl
  built := by simp [State.BuiltLength, State.reset]
  prepared := by simp [State.PreparedLength, State.reset]
  crc := by simp [State.PreparedCrc, State.reset]
  padding _ _ _ := rfl

theorem toNat_ofLength {n : Nat} (h : n < 256) : (Byte.ofLength n).toNat = n :=
  Nat.mod_eq_of_lt h

theorem State.frameInv_buildFrame (s : State) {ad : List Byte} (hlow : 1 ≤ ad.length) (hhigh : ad.length ≤ 21) :
    (s.buildFrame ad).succeeded.FrameInv := by
  have hflen : (s.buildFrame ad).succeeded.flen.toNat = 8 + ad.length := toNat_ofLength (by omega)
  refine ⟨by rintro ⟨⟩, fun _ => by omega, by rintro ⟨⟩, by rintro ⟨⟩, fun k hk hn => ?_⟩
  exact (s.frameIn_memWithFb hhigh).padding k (by omega) hk

/-- APPEND_CRC changes no byte outside the three after the frame (R129). -/
theorem State.fbByte_sealed {s : State} {k : Nat} (hk : k < s.flen.toNat ∨ s.flen.toNat + 3 ≤ k) :
    s.sealed.fbByte k = s.fbByte k :=
  Memory.read_writeBytes_outside _ (by simp only [CrcReg.length_bytes]; omega)

theorem State.frameInv_sealed {s : State} (hs : s.FrameInv) (hf : s.fstate = .built) (hn : s.flen.toNat ≤ 29) :
    s.sealed.FrameInv := by
  obtain ⟨hlow, -⟩ := hs.built hf
  have hflen : s.sealed.flen.toNat = s.flen.toNat + 3 := toNat_ofLength (by omega)
  refine ⟨by rintro ⟨⟩, by rintro ⟨⟩, fun _ => by omega, fun _ => ?_, fun k hk hpad => ?_⟩
  · have hframe : s.sealed.fbBytes 0 s.flen.toNat = s.fbBytes 0 s.flen.toNat :=
      Memory.readBytes_congr fun i hi => State.fbByte_sealed (.inl (by omega))
    rw [hflen, Nat.add_sub_cancel, hframe]
    exact s.mem.holds_writeBytes (0x60 + s.flen.toNat) (crc24 (s.fbBytes 0 s.flen.toNat)).bytes
  · rw [State.fbByte_sealed (.inr (by omega))]
    exact hs.padding k hk (by omega)

theorem State.FrameInv.of_fate {s t : State} (hs : s.FrameInv) (h : FrameFate s t) : t.FrameInv := by
  cases h with
  | kept h => exact hs.of_sameFrame h
  | cleared h => exact h ▸ s.frameInv_resetBlock
  | built ad hlow hhigh h => exact h ▸ s.frameInv_buildFrame hlow hhigh
  | sealed hf hn h => exact h ▸ State.frameInv_sealed hs hf hn

/-- Whatever is served keeps the invariants. -/
theorem serve_inv {e : Event} {s t : State} (hs : s.Inv) (h : serve e s = .next t) : t.Inv := by
  obtain ⟨hframe, hmem⟩ := s.inv_iff.mp hs
  exact t.inv_iff.mpr ⟨hframe.of_fate (serve_frameFate h), serve_memoryForm hmem h⟩

theorem step_inv {s t : State} (hs : s.Inv) (h : step s = .next t) : t.Inv := by
  obtain ⟨-, rfl⟩ | ⟨e, rest, -, he⟩ := step_next h
  · exact hs
  · exact serve_inv (s := s.setPending rest) hs he

/-- Settles O38: the reset state is checked, and a step serves one event from the state without it. -/
theorem stepKeepsInvariants : Obligations.StepKeepsInvariants :=
  have ⟨hreset, _, _⟩ := resetMeetsInvariants
  ⟨hreset, fun _ _ => step_inv⟩

/-! ### The header -/

theorem State.Header.of_sameFrame {s t : State} (hs : s.Header) (h : s.SameFrame t) : t.Header := by
  rw [State.Header, h.fstate, h.flen, h.fbByte 0 (by decide), h.fbByte 1 (by decide)]
  exact hs

theorem State.header_buildFrame (s : State) {ad : List Byte} (hhigh : ad.length ≤ 21) :
    (s.buildFrame ad).succeeded.Header := by
  intro _
  have hframe := s.frameIn_memWithFb hhigh
  have hflen : (s.buildFrame ad).succeeded.flen.toNat = 8 + ad.length := toNat_ofLength (by omega)
  have hlen : ((s.buildFrame ad).succeeded.fbByte 1).toNat = 6 + ad.length :=
    (congrArg BitVec.toNat hframe.length).trans (toNat_ofLength (by omega))
  refine ⟨hframe.pduType, ?_⟩
  rw [hflen, hlen, if_neg (by rintro ⟨⟩)]
  omega

/-- Sealing keeps the two header bytes, which count three more bytes of FLEN as the CRC's. -/
theorem State.header_sealed {s : State} (hs : s.Header) (hf : s.fstate = .built) (hlow : 9 ≤ s.flen.toNat)
    (hn : s.flen.toNat ≤ 29) : s.sealed.Header := by
  intro _
  obtain ⟨htype, hlen⟩ := hs (by simp [hf])
  have hflen : s.sealed.flen.toNat = s.flen.toNat + 3 := toNat_ofLength (by omega)
  rw [if_neg (by simp [hf])] at hlen
  rw [State.fbByte_sealed (.inl (by omega)), State.fbByte_sealed (.inl (by omega)), hflen]
  exact ⟨htype, congrArg (· + 3) hlen⟩

theorem State.Header.of_fate {s t : State} (hs : s.Header) (hinv : s.FrameInv) (h : FrameFate s t) : t.Header := by
  cases h with
  | kept h => exact hs.of_sameFrame h
  | cleared h => exact h ▸ fun hne => absurd rfl hne
  | built ad hlow hhigh h => exact h ▸ s.header_buildFrame hhigh
  | sealed hf hn h => exact h ▸ State.header_sealed hs hf (hinv.built hf).1 hn

/-- Settles O39: by the four fates of the frame. -/
theorem stepKeepsFrameHeader : Obligations.StepKeepsFrameHeader := by
  intro s t hinv hs h
  obtain ⟨-, rfl⟩ | ⟨e, rest, -, he⟩ := step_next h
  · exact hs
  · have ⟨hframe, _⟩ := (s.setPending rest).inv_iff.mp hinv
    exact State.Header.of_fate (s := s.setPending rest) hs hframe (serve_frameFate he)

end Sys2Proof.Machine

/-! ## What a command writes and reads

The registers and bytes each command may write, said once; and that a command does not see the operand registers which
the opcode map does not list for it. -/

namespace Sys2Proof.Machine

/-! ### Written fields -/

/-- The state s with the operand and staging registers of o (10_state.md section 4). -/
def State.withOperands (s o : State) : State :=
  { s with
    chidx := o.chidx, sel := o.sel, start := o.start, len := o.len, adlen := o.adlen, namelen := o.namelen,
    mfrlen := o.mfrlen, mac := o.mac, name := o.name, mfr := o.mfr, ad := o.ad }

/-- What a command other than SRESET has left alone on the way from s to t: the operand registers (R211), and CRC0..2
(R34), WLFSR (R35) and TB (R43) unless it is one of their writers. -/
structure WritesOnlyOwn (i : Instr) (s t : State) : Prop where
  operands : t = t.withOperands s
  crc : i ≠ .crc → i ≠ .appendCrc → t.crc = s.crc
  wlfsr : i ≠ .whiten → i ≠ .encode → t.wlfsr = s.wlfsr
  tbByte : i ≠ .copy → i ≠ .encode → i ≠ .whiten → i ≠ .reverse → ∀ k, k < 32 → t.tbByte k = s.tbByte k

theorem writesOnlyOwn_failed (i : Instr) (s : State) (c : ErrCode) : WritesOnlyOwn i s (s.failed c) :=
  ⟨rfl, fun _ _ => rfl, fun _ _ => rfl, fun _ _ _ _ _ _ => rfl⟩

theorem writesOnlyOwn_buildFrame (i : Instr) (s : State) {ad : List Byte} (hhigh : ad.length ≤ 21) :
    WritesOnlyOwn i s (s.buildFrame ad).succeeded :=
  ⟨rfl, fun _ _ => rfl, fun _ _ => rfl,
    fun _ _ _ _ k _ => (s.frameIn_memWithFb hhigh).outside (0x80 + k) (.inr (Nat.le_add_right 0x80 k))⟩

/-- Sealing a frame reaches the end of FB at most. -/
theorem State.tbByte_sealed {s : State} (hn : s.flen.toNat ≤ 29) (k : Nat) : s.sealed.tbByte k = s.tbByte k :=
  Memory.read_writeBytes_outside (a := 0x60 + s.flen.toNat) (b := 0x80 + k) _
    (.inr (by rw [CrcReg.length_bytes]; omega))

theorem exec_writesOnlyOwn {i : Instr} {s t : State} (h : exec i s = .next t) (hi : i ≠ .sreset) :
    WritesOnlyOwn i s t := by
  cases i with
  | sreset => exact absurd rfl hi
  | nop => obtain rfl := execNop_next h; exact ⟨rfl, fun _ _ => rfl, fun _ _ => rfl, fun _ _ _ _ _ _ => rfl⟩
  | copy => obtain rfl := execCopy_next h; exact ⟨rfl, fun _ _ => rfl, fun _ _ => rfl, fun hw => absurd rfl hw⟩
  | build =>
    obtain ⟨-, rfl⟩ | ⟨⟨-, hhigh⟩, rfl⟩ := execBuild_next h
    · exact writesOnlyOwn_failed ..
    · exact writesOnlyOwn_buildFrame _ s ((s.length_adBytes hhigh).trans_le hhigh)
  | buildStd =>
    obtain ⟨-, rfl⟩ | ⟨⟨hname, hmfr⟩, rfl⟩ := execBuildStd_next h
    · exact writesOnlyOwn_failed ..
    · exact writesOnlyOwn_buildFrame _ s (length_stdAd_le hname hmfr)
  | appendCrc =>
    obtain ⟨-, rfl⟩ | ⟨-, hn, rfl⟩ := execAppendCrc_next h
    · exact writesOnlyOwn_failed ..
    · exact ⟨rfl, fun _ hw => absurd rfl hw, fun _ _ => rfl, fun _ _ _ _ k _ => State.tbByte_sealed hn k⟩
  | crc =>
    obtain ⟨-, rfl⟩ | ⟨-, rfl⟩ := execCrc_next h
    · exact writesOnlyOwn_failed ..
    · exact ⟨rfl, fun hw => absurd rfl hw, fun _ _ => rfl, fun _ _ _ _ _ _ => rfl⟩
  | reverse =>
    obtain ⟨-, rfl⟩ | ⟨-, rfl⟩ := execReverse_next h
    · exact writesOnlyOwn_failed ..
    · exact ⟨rfl, fun _ _ => rfl, fun _ _ => rfl, fun _ _ _ hw => absurd rfl hw⟩
  | whiten =>
    obtain ⟨-, rfl⟩ | ⟨c, -, -, rfl⟩ | ⟨c, -, -, rfl⟩ := execWhiten_next h
    · exact writesOnlyOwn_failed ..
    · exact writesOnlyOwn_failed ..
    · exact ⟨rfl, fun _ _ => rfl, fun hw => absurd rfl hw, fun _ _ hw => absurd rfl hw⟩
  | encode =>
    obtain ⟨-, rfl⟩ | ⟨-, -, rfl⟩ | ⟨c, -, -, -, rfl⟩ := execEncode_next h
    · exact writesOnlyOwn_failed ..
    · exact writesOnlyOwn_failed ..
    · exact ⟨rfl, fun _ _ => rfl, fun _ hw => absurd rfl hw, fun _ hw => absurd rfl hw⟩

/-- Settles O32: by what a command leaves alone, TB among it. -/
theorem transmitBufferChangesOnlyByItsWriters : Obligations.TransmitBufferChangesOnlyByItsWriters :=
  fun _ _ _ h hcopy hencode hwhiten hreverse hi => (exec_writesOnlyOwn h hi).tbByte hcopy hencode hwhiten hreverse

/-- Settles O33: by what a command leaves alone, the result registers among it. -/
theorem resultRegistersChangeOnlyByTheirWriters : Obligations.ResultRegistersChangeOnlyByTheirWriters :=
  fun _ _ _ h => ⟨fun hcrc happend hi => (exec_writesOnlyOwn h hi).crc hcrc happend,
    fun hwhiten hencode hi => (exec_writesOnlyOwn h hi).wlfsr hwhiten hencode⟩

/-- No command touches the host's side of the bus (log entries 1 and 3). -/
theorem exec_keeps_host {i : Instr} {s t : State} (h : exec i s = .next t) :
    t.pending = s.pending ∧ t.reads = s.reads := by
  cases i with
  | nop => obtain rfl := execNop_next h; exact ⟨rfl, rfl⟩
  | copy => obtain rfl := execCopy_next h; exact ⟨rfl, rfl⟩
  | sreset => obtain rfl := execSreset_next h; exact ⟨rfl, rfl⟩
  | build => obtain ⟨-, rfl⟩ | ⟨-, rfl⟩ := execBuild_next h <;> exact ⟨rfl, rfl⟩
  | buildStd => obtain ⟨-, rfl⟩ | ⟨-, rfl⟩ := execBuildStd_next h <;> exact ⟨rfl, rfl⟩
  | appendCrc => obtain ⟨-, rfl⟩ | ⟨-, -, rfl⟩ := execAppendCrc_next h <;> exact ⟨rfl, rfl⟩
  | crc => obtain ⟨-, rfl⟩ | ⟨-, rfl⟩ := execCrc_next h <;> exact ⟨rfl, rfl⟩
  | reverse => obtain ⟨-, rfl⟩ | ⟨-, rfl⟩ := execReverse_next h <;> exact ⟨rfl, rfl⟩
  | whiten => obtain ⟨-, rfl⟩ | ⟨c, -, -, rfl⟩ | ⟨c, -, -, rfl⟩ := execWhiten_next h <;> exact ⟨rfl, rfl⟩
  | encode => obtain ⟨-, rfl⟩ | ⟨-, -, rfl⟩ | ⟨c, -, -, -, rfl⟩ := execEncode_next h <;> exact ⟨rfl, rfl⟩

/-- Settles O34: t has the operand registers of s. -/
theorem operandRegistersChangeOnlyBySreset : Obligations.OperandRegistersChangeOnlyBySreset := by
  intro i s t h
  obtain ⟨hpending, hreads⟩ := exec_keeps_host h
  refine ⟨hpending, hreads, fun hi => ?_⟩
  rw [(exec_writesOnlyOwn h hi).operands]
  exact ⟨rfl, rfl, rfl, rfl, rfl, rfl, rfl, rfl, rfl, rfl, rfl⟩

/-! ### Operands read -/

/-- The operand registers that the opcode map lists for a command are the same in o as in s (R92). -/
def SameOperands (s o : State) : Instr → Prop
  | .build => o.adlen = s.adlen ∧ o.ad = s.ad ∧ o.mac = s.mac
  | .buildStd => o.namelen = s.namelen ∧ o.name = s.name ∧ o.mfrlen = s.mfrlen ∧ o.mfr = s.mfr ∧ o.mac = s.mac
  | .crc => o.sel = s.sel ∧ o.start = s.start ∧ o.len = s.len
  | .whiten => o.chidx = s.chidx ∧ o.start = s.start ∧ o.len = s.len
  | .reverse => o.start = s.start ∧ o.len = s.len
  | .encode => o.chidx = s.chidx
  | .nop | .appendCrc | .copy | .sreset => True

/-- A command answers the same from other values of its unlisted operands, and keeps these (R93): what the meaning
checks and reads is the same, so the equation of the same case applies. -/
theorem exec_withOperands {i : Instr} {s t o : State} (h : exec i s = .next t) (hi : i ≠ .sreset)
    (ho : SameOperands s o i) : exec i (s.withOperands o) = .next (t.withOperands o) := by
  cases s
  cases o
  cases i with
  | sreset => exact absurd rfl hi
  | nop => obtain rfl := execNop_next h; rfl
  | copy => obtain rfl := execCopy_next h; rfl
  | build =>
    obtain ⟨rfl, rfl, rfl⟩ := ho
    obtain ⟨hn, rfl⟩ | ⟨hn, rfl⟩ := execBuild_next h
    · exact execBuild_of_size hn
    · exact execBuild_of_legal hn
  | buildStd =>
    obtain ⟨rfl, rfl, rfl, rfl, rfl⟩ := ho
    obtain ⟨hn, rfl⟩ | ⟨hn, rfl⟩ := execBuildStd_next h
    · exact execBuildStd_of_size hn
    · exact execBuildStd_of_legal hn
  | appendCrc =>
    obtain ⟨hf, rfl⟩ | ⟨hf, hn, rfl⟩ := execAppendCrc_next h
    · exact execAppendCrc_of_not_built hf
    · exact execAppendCrc_of_built hf hn
  | crc =>
    obtain ⟨rfl, rfl, rfl⟩ := ho
    obtain ⟨hr, rfl⟩ | ⟨hr, rfl⟩ := execCrc_next h
    · exact execCrc_of_range hr
    · exact execCrc_of_legal hr
  | reverse =>
    obtain ⟨rfl, rfl⟩ := ho
    obtain ⟨hr, rfl⟩ | ⟨hr, rfl⟩ := execReverse_next h
    · exact execReverse_of_range hr
    · exact execReverse_of_legal hr
  | whiten =>
    obtain ⟨rfl, rfl, rfl⟩ := ho
    obtain ⟨hc, rfl⟩ | ⟨c, hc, hr, rfl⟩ | ⟨c, hc, hr, rfl⟩ := execWhiten_next h
    · exact execWhiten_of_chan hc
    · exact execWhiten_of_range hc hr
    · exact execWhiten_of_legal hc hr
  | encode =>
    obtain rfl := ho
    obtain ⟨hf, rfl⟩ | ⟨hf, hc, rfl⟩ | ⟨c, hf, hc, hn, rfl⟩ := execEncode_next h
    · exact execEncode_of_not_prepared hf
    · exact execEncode_of_chan hf hc
    · exact execEncode_of_prepared hf hc hn

/-- Settles O36: in each clause the command's listed operands keep their values, and t has the other operands of s. -/
theorem unlistedOperandsAreNotRead : Obligations.UnlistedOperandsAreNotRead := by
  intro i s t hi h
  have hsame {o : State} : SameOperands s o i → exec i (s.withOperands o) = .next ((t.withOperands s).withOperands o) :=
    (exec_writesOnlyOwn h hi).operands ▸ exec_withOperands h hi
  rw [(exec_writesOnlyOwn h hi).operands]
  refine ⟨fun hbuild n v => hsame (o := { s with adlen := n, ad := v }) ?_,
    fun hbuildStd n v r w => hsame (o := { s with namelen := n, name := v, mfrlen := r, mfr := w }) ?_,
    fun hbuild hbuildStd v => hsame (o := { s with mac := v }) ?_,
    fun hwhiten hencode c => hsame (o := { s with chidx := c }) ?_,
    fun hcrc b => hsame (o := { s with sel := b }) ?_,
    fun hcrc hwhiten hreverse a n => hsame (o := { s with start := a, len := n }) ?_⟩
  all_goals cases i <;> simp_all [SameOperands]

end Sys2Proof.Machine

/-! ## Causes of errors -/

namespace Sys2Proof.Machine

/-- The row of the cause table that holds of a command and a state, in the order of checks (R232, R233). -/
def errorCause (s : State) : Instr → ErrCode
  | .build => if s.adlen.toNat = 0 ∨ 21 < s.adlen.toNat then .size else .ok
  | .buildStd => if 6 < s.namelen.toNat ∨ 8 < s.mfrlen.toNat then .size else .ok
  | .appendCrc => if s.fstate = .built then .ok else .state
  | .crc | .reverse => if 32 < s.start.toNat + s.len.toNat then .range else .ok
  | .whiten => if s.chidx = 3 then .chan else if 32 < s.start.toNat + s.len.toNat then .range else .ok
  | .encode => if s.fstate = .prepared then if s.chidx = 3 then .chan else .ok else .state
  | .nop | .copy | .sreset => .ok

theorem exec_err {i : Instr} {s t : State} (h : exec i s = .next t) : t.err = errorCause s i := by
  have hchan {c : Fin 3} (hc : s.channel = some c) : s.chidx ≠ 3 := by
    rw [ne_eq, ← State.channel_eq_none_iff, hc]; rintro ⟨⟩
  cases i with
  | nop => obtain rfl := execNop_next h; rfl
  | copy => obtain rfl := execCopy_next h; rfl
  | sreset => obtain rfl := execSreset_next h; rfl
  | build =>
    obtain ⟨hn, rfl⟩ | ⟨hn, rfl⟩ := execBuild_next h
    · exact (if_pos hn).symm
    · exact (if_neg (by omega)).symm
  | buildStd =>
    obtain ⟨hn, rfl⟩ | ⟨hn, rfl⟩ := execBuildStd_next h
    · exact (if_pos hn).symm
    · exact (if_neg (by omega)).symm
  | appendCrc =>
    obtain ⟨hf, rfl⟩ | ⟨hf, -, rfl⟩ := execAppendCrc_next h
    · exact (if_neg hf).symm
    · exact (if_pos hf).symm
  | crc =>
    obtain ⟨hr, rfl⟩ | ⟨hr, rfl⟩ := execCrc_next h
    · exact (if_pos (s.rangeLegal_eq_false_iff.mp hr)).symm
    · exact (if_neg (s.rangeLegal_iff.mp hr).not_gt).symm
  | reverse =>
    obtain ⟨hr, rfl⟩ | ⟨hr, rfl⟩ := execReverse_next h
    · exact (if_pos (s.rangeLegal_eq_false_iff.mp hr)).symm
    · exact (if_neg (s.rangeLegal_iff.mp hr).not_gt).symm
  | whiten =>
    obtain ⟨hc, rfl⟩ | ⟨c, hc, hr, rfl⟩ | ⟨c, hc, hr, rfl⟩ := execWhiten_next h
    · exact (if_pos (s.channel_eq_none_iff.mp hc)).symm
    · exact ((if_neg (hchan hc)).trans (if_pos (s.rangeLegal_eq_false_iff.mp hr))).symm
    · exact ((if_neg (hchan hc)).trans (if_neg (s.rangeLegal_iff.mp hr).not_gt)).symm
  | encode =>
    obtain ⟨hf, rfl⟩ | ⟨hf, hc, rfl⟩ | ⟨c, hf, hc, -, rfl⟩ := execEncode_next h
    · exact (if_neg hf).symm
    · exact ((if_pos hf).trans (if_pos (s.channel_eq_none_iff.mp hc))).symm
    · exact ((if_pos hf).trans (if_neg (hchan hc))).symm

/-- Settles O17: ERR is the cause's code, and each code's rows are read off command by command. -/
theorem errorCodesHaveTheirCauses : Obligations.ErrorCodesHaveTheirCauses := by
  intro i s t h
  rw [exec_err h]
  cases i with
  | nop | copy | sreset => simp [errorCause]
  | build | buildStd | appendCrc | crc | whiten | reverse | encode =>
    simp only [errorCause]
    split_ifs <;> simp_all

@[simp] theorem State.store_err (s : State) (v : Byte) (l : Loc) : (s.store v l).err = s.err := by
  cases l <;> rfl

/-- Settles O19: a failure sets ERRSEEN with ERR, and a success has none to show. -/
theorem stepKeepsStickyError : Obligations.StepKeepsStickyError := by
  obtain ⟨-, -, hreset⟩ := resetMeetsInvariants
  refine ⟨hreset, fun s t hs h => ?_⟩
  obtain ⟨-, rfl⟩ | ⟨e, rest, -, he⟩ := step_next h
  · exact hs
  obtain ⟨-, rfl⟩ | ⟨a, -, rfl⟩ | ⟨a, v, -, hw⟩ := serve_next he
  · exact hreset
  · exact hs
  · obtain ⟨i, -, -, hexec⟩ | ⟨-, -, rfl⟩ | ⟨-, rfl⟩ := hostWrite_next hw
    · obtain ⟨c, -, rfl⟩ | ⟨hok, -⟩ := exec_next_status hexec
      · exact fun _ => rfl
      · exact fun hne => absurd hok hne
    · exact fun _ => rfl
    · rw [State.StickyError, State.store_err, State.store_errSeen]
      exact hs

end Sys2Proof.Machine

/-! ## Nothing stops the block -/

namespace Sys2Proof.Machine

/-- Every case of a command answers a next state but the two on overlong frames, which the invariants rule out. -/
theorem exists_exec_next {s : State} (hs : s.FrameInv) (i : Instr) : ∃ t, exec i s = .next t := by
  cases i with
  | nop => exact ⟨_, rfl⟩
  | copy => exact ⟨_, rfl⟩
  | sreset => exact ⟨_, rfl⟩
  | build =>
    by_cases hn : s.adlen.toNat = 0 ∨ 21 < s.adlen.toNat
    · exact ⟨_, execBuild_of_size hn⟩
    · exact ⟨_, execBuild_of_legal (by omega)⟩
  | buildStd =>
    by_cases hn : 6 < s.namelen.toNat ∨ 8 < s.mfrlen.toNat
    · exact ⟨_, execBuildStd_of_size hn⟩
    · exact ⟨_, execBuildStd_of_legal (by omega)⟩
  | appendCrc =>
    by_cases hf : s.fstate = .built
    · exact ⟨_, execAppendCrc_of_built hf (hs.built hf).2⟩
    · exact ⟨_, execAppendCrc_of_not_built hf⟩
  | crc =>
    cases hr : s.rangeLegal with
    | false => exact ⟨_, execCrc_of_range hr⟩
    | true => exact ⟨_, execCrc_of_legal hr⟩
  | reverse =>
    cases hr : s.rangeLegal with
    | false => exact ⟨_, execReverse_of_range hr⟩
    | true => exact ⟨_, execReverse_of_legal hr⟩
  | whiten =>
    cases hc : s.channel with
    | none => exact ⟨_, execWhiten_of_chan hc⟩
    | some c =>
      cases hr : s.rangeLegal with
      | false => exact ⟨_, execWhiten_of_range hc hr⟩
      | true => exact ⟨_, execWhiten_of_legal hc hr⟩
  | encode =>
    by_cases hf : s.fstate = .prepared
    · cases hc : s.channel with
      | none => exact ⟨_, execEncode_of_chan hf hc⟩
      | some c => exact ⟨_, execEncode_of_prepared hf hc (hs.prepared hf).2⟩
    · exact ⟨_, execEncode_of_not_prepared hf⟩

theorem exists_hostWrite_next {s : State} (hs : s.FrameInv) (a v : Byte) : ∃ t, hostWrite a v s = .next t := by
  by_cases ha : a = 0x00
  · rw [hostWrite, if_pos ha, issue]
    split
    · exact exists_exec_next hs _
    · exact ⟨_, rfl⟩
  · exact ⟨_, hostWrite_of_ne_cmd ha v s⟩

/-- What the host may make is a reset pulse, a byte read or a byte write of its own (R270). -/
theorem Event.eq_of_wf {e : Event} (h : e.wf = true) : e = .reset ∨ (∃ a, e = .rd a) ∨ ∃ a v, e = .wr a v := by
  match e with
  | .reset => exact .inl rfl
  | .access m (.read a w) =>
    obtain ⟨rfl, rfl⟩ : m = 0 ∧ w = 1 := by simpa [Event.wf, BusOp.wf] using h
    exact .inr (.inl ⟨a, rfl⟩)
  | .access m (.write a d) =>
    obtain ⟨rfl, hd⟩ : m = 0 ∧ d.length = 1 := by simpa [Event.wf, BusOp.wf] using h
    obtain ⟨v, rfl⟩ := List.length_eq_one_iff.mp hd
    exact .inr (.inr ⟨a, v, rfl⟩)

theorem exists_serve_next {s : State} (hs : s.FrameInv) {e : Event} (he : e.wf = true) : ∃ t, serve e s = .next t := by
  obtain rfl | ⟨a, rfl⟩ | ⟨a, v, rfl⟩ := Event.eq_of_wf he
  · exact ⟨_, rfl⟩
  · exact ⟨_, rfl⟩
  · exact exists_hostWrite_next hs a v

theorem exists_step_next {s : State} (hs : s.Inv) (hrules : s.HostKeepsRules) : ∃ t, step s = .next t := by
  cases hp : s.pending with
  | nil => exact ⟨_, step_of_pending_nil hp⟩
  | cons e rest =>
    obtain ⟨hframe, -⟩ := (s.setPending rest).inv_iff.mp hs
    rw [step_of_pending hp]
    exact exists_serve_next hframe (hrules e (by simp [hp]))

/-- Settles O40: the invariants bound the length that two commands could stop on. -/
theorem nothingStopsTheBlock : Obligations.NothingStopsTheBlock :=
  ⟨fun i s hs => exists_exec_next (s.inv_iff.mp hs).1 i, fun _ => exists_step_next⟩

/-! ### Runs -/

/-- What is served leaves the accesses after it in place. -/
theorem serve_pending {e : Event} {s t : State} (h : serve e s = .next t) : t.pending = s.pending := by
  obtain ⟨-, rfl⟩ | ⟨a, -, rfl⟩ | ⟨a, v, -, hw⟩ := serve_next h
  · rfl
  · rfl
  · obtain ⟨i, -, -, hexec⟩ | ⟨-, -, rfl⟩ | ⟨-, rfl⟩ := hostWrite_next hw
    · exact (exec_keeps_host hexec).1
    · rfl
    · exact s.store_pending v _

/-- A run serves its accesses one by one: each step goes on, leaves the rest pending and keeps the invariants. -/
theorem exists_finish_next {s : State} (hs : s.Inv) (hrules : s.HostKeepsRules) :
    ∃ t, finish s = .next t ∧ t.pending = [] ∧ t.Inv := by
  induction hp : s.pending generalizing s with
  | nil => exact ⟨s, finish_nil hp, hp, hs⟩
  | cons e es ih =>
    obtain ⟨u, hu⟩ := exists_step_next hs hrules
    have hrest : u.pending = es := serve_pending (step_of_pending hp ▸ hu)
    have hurules : u.HostKeepsRules := fun d hd => hrules d (by simp [hp, hrest ▸ hd])
    obtain ⟨t, ht, hdone, hinv⟩ := ih (step_inv hs hu) hurules hrest
    have hsame : s = { s with pending := e :: es } := by rw [← hp]
    rw [hsame] at hu ⊢
    exact ⟨t, (finish_cons_of_next hu hrest).trans ht, hdone, hinv⟩

/-- Settles O41: by the run of all the pending accesses. -/
theorem everyRunEnds : Obligations.EveryRunEnds := fun _ => exists_finish_next

end Sys2Proof.Machine

/-! ## Host writes, repeated and reordered -/

namespace Sys2Proof.Machine

/-! ### A byte written twice -/

theorem Memory.erase_erase (m : Memory) (a : Nat) : (m.erase a).erase a = m.erase a := by
  simp [Memory.erase]

theorem Memory.erase_insert {m : Memory} {a : Nat} (v : Byte) (h : ∀ c ∈ m, c.1 ≠ a) : (m.insert a v).erase a = m := by
  induction m with
  | nil => simp [Memory.insert, Memory.erase]
  | cons c m ih =>
    obtain ⟨b, w⟩ := c
    obtain ⟨hb, hm⟩ := List.forall_mem_cons.mp h
    have herase : Memory.erase m a = m := List.filter_eq_self.mpr fun c hc => by simpa using hm c hc
    have ih : List.filter (fun c => c.1 != a) (Memory.insert m a v) = m := ih hm
    unfold Memory.insert
    split
    · simpa [Memory.erase, hb] using hm
    · simp [Memory.erase, hb, ih]

/-- Writing a byte again changes nothing, whatever the memory is. -/
theorem Memory.write_write (m : Memory) (a : Nat) (v : Byte) : (m.write a v).write a v = m.write a v := by
  unfold Memory.write
  split
  · exact m.erase_erase a
  · rw [Memory.erase_insert v Memory.ne_of_mem_erase]

theorem State.store_store (s : State) (v : Byte) (l : Loc) : (s.store v l).store v l = s.store v l := by
  cases l with
  | mac i => exact congrArg (fun r => { s with mac := r }) (Vector.set_set ..)
  | name i => exact congrArg (fun r => { s with name := r }) (Vector.set_set ..)
  | mfr i => exact congrArg (fun r => { s with mfr := r }) (Vector.set_set ..)
  | ad i => exact congrArg (fun r => { s with ad := r }) (Vector.set_set ..)
  | tb k => exact congrArg s.setMem (s.mem.write_write _ v)
  | _ => rfl

/-- A write outside CMD, as the step from a state that has it pending. -/
theorem step_wr_again {s : State} {a v : Byte} {rest : List Event} (ha : a ≠ 0x00) (hp : s.pending = rest) :
    step { s with pending := .wr a v :: rest } = .next (s.store v (locate a)) := by
  subst hp
  exact step_wr_of_ne_cmd ha rfl

/-- Settles O11: both writes store the byte, the second into the state of the first. -/
theorem hostWriteTwiceIsOnce : Obligations.HostWriteTwiceIsOnce := by
  intro s t a v rest ha hp h
  obtain rfl : (s.setPending rest).store v (locate a) = t := by simpa [step_wr_of_ne_cmd ha hp] using h
  have hagain := step_wr_again (v := v) ha ((s.setPending rest).store_pending v (locate a))
  rw [State.store_store] at hagain
  exact hagain

/-! ### Two bytes in either order -/

theorem Memory.write_comm {m : Memory} (h : m.wf = true) {a b : Nat} (hab : a ≠ b) (v w : Byte) :
    (m.write a v).write b w = (m.write b w).write a v := by
  refine Memory.ext_of_read (Memory.wf_write _ _ (Memory.wf_write _ _ h)) (Memory.wf_write _ _ (Memory.wf_write _ _ h))
    fun c => ?_
  simp only [Memory.read_write]
  split_ifs with hb ha
  · exact absurd (ha.symm.trans hb) hab
  all_goals rfl

theorem State.store_comm {s : State} (h : s.mem.wf = true) {l l' : Loc} (hl : l ≠ l') (v w : Byte) :
    (s.store v l).store w l' = (s.store w l').store v l := by
  have hne {n : Nat} {i j : Fin n} {f : Fin n → Loc} (h : f i ≠ f j) : i.val ≠ j.val :=
    fun hij => h (congrArg f (Fin.ext hij))
  cases l with
  | chidx => cases l' with | chidx => exact absurd rfl hl | _ => rfl
  | sel => cases l' with | sel => exact absurd rfl hl | _ => rfl
  | start => cases l' with | start => exact absurd rfl hl | _ => rfl
  | len => cases l' with | len => exact absurd rfl hl | _ => rfl
  | adlen => cases l' with | adlen => exact absurd rfl hl | _ => rfl
  | namelen => cases l' with | namelen => exact absurd rfl hl | _ => rfl
  | mfrlen => cases l' with | mfrlen => exact absurd rfl hl | _ => rfl
  | mac i =>
    cases l' with
    | mac j => exact congrArg (fun r => { s with mac := r }) (Vector.set_comm v w (hne hl))
    | _ => rfl
  | name i =>
    cases l' with
    | name j => exact congrArg (fun r => { s with name := r }) (Vector.set_comm v w (hne hl))
    | _ => rfl
  | mfr i =>
    cases l' with
    | mfr j => exact congrArg (fun r => { s with mfr := r }) (Vector.set_comm v w (hne hl))
    | _ => rfl
  | ad i =>
    cases l' with
    | ad j => exact congrArg (fun r => { s with ad := r }) (Vector.set_comm v w (hne hl))
    | _ => rfl
  | tb j =>
    cases l' with
    | tb k =>
      have hjk : j.val ≠ k.val := hne hl
      exact congrArg s.setMem (Memory.write_comm h (by omega) v w)
    | _ => rfl
  | cmd | status | flen | crc0 | crc1 | crc2 | wlfsr | fb _ | reserved _ => rfl

/-- A run of two writes outside CMD stores both bytes. -/
theorem finish_wr_wr {a b : Byte} (ha : a ≠ 0x00) (hb : b ≠ 0x00) (s : State) (v w : Byte) :
    finish { s with pending := [.wr a v, .wr b w] } =
      .next (((s.store v (locate a)).store w (locate b)).setPending []) := by
  rw [finish_wr ha, finish_wr hb, finish_nil rfl]
  rfl

/-- Settles O12: different addresses hold different locations, and stores to these commute. -/
theorem operandWritesCommute : Obligations.OperandWritesCommute := by
  rintro s a v b w ⟨hwf, -⟩ ha hb hab
  refine ⟨_, rfl, finish_wr_wr ha hb s v w, ?_⟩
  rw [finish_wr_wr hb ha, State.store_comm hwf (locate_injective.ne hab.symm)]

end Sys2Proof.Machine

/-! ## Runs of program lines -/

namespace Sys2Proof.Machine

/-- Settles O55: a literal's run is one step, and a register's name stands for its address. -/
theorem accessLinesReachTheirLocations : Obligations.AccessLinesReachTheirLocations := by
  refine ⟨fun s a v => ⟨finish_singleton s _, ?_, rfl⟩, fun _ _ => ⟨rfl, rfl, rfl⟩, by decide, by decide, by decide,
    by decide, by decide⟩
  have hstep : step (s.setPending [.rd a]) = _ := step_of_pending_rd rfl
  rw [State.memRead_setPending] at hstep
  exact (finish_singleton s _).trans hstep

/-- A run that sets START and LEN and issues a command answers what the command does on them. -/
theorem finish_range_cmdWrite (s : State) (a n : Byte) (i : Instr) :
    finish { s with pending := [.wr Loc.start.addr a, .wr Loc.len.addr n, cmdWrite i] } =
      exec i { s with pending := [], start := a, len := n } :=
  calc finish { s with pending := [.wr Loc.start.addr a, .wr Loc.len.addr n, cmdWrite i] }
    _ = finish { s with pending := [.wr Loc.len.addr n, cmdWrite i], start := a } := finish_wr (by decide) s a _
    _ = finish { s with pending := [cmdWrite i], start := a, len := n } :=
      finish_wr (a := Loc.len.addr) (by decide) { s with start := a } n _
    _ = exec i { s with pending := [], start := a, len := n } := finish_cmdWrite { s with start := a, len := n } i

/-- Settles O53: each line's operand writes store their bytes, and its last access issues the command. -/
theorem pseudoInstructionsSetOperandsAndRun : Obligations.PseudoInstructionsSetOperandsAndRun := fun s c a n =>
  ⟨(finish_wr (by decide) s c _).trans (finish_cmdWrite { s with chidx := c.setWidth 2 } .encode),
    (finish_wr (by decide) s c _).trans (finish_range_cmdWrite { s with chidx := c.setWidth 2 } a n .whiten),
    finish_range_cmdWrite s a n .reverse,
    (finish_wr (by decide) s 0x00 _).trans (finish_range_cmdWrite { s with sel := 0 } a n .crc),
    (finish_wr (by decide) s 0x01 _).trans (finish_range_cmdWrite { s with sel := 1 } a n .crc)⟩

/-! ### Staging lines -/

/-- Only CMD's address is 0x00 (R22). -/
theorem ne_zero_of_locate {a : Byte} {l : Loc} (h : locate a = l) (hl : l ≠ .cmd) : a ≠ 0x00 :=
  fun ha => hl (h.symm.trans ((locate_eq_cmd_iff a).mpr ha))

theorem finish_writes_mac (s : State) {bs : List Byte} (h : bs.length ≤ 6) (rest : List Event) :
    finish { s with pending := writes (Loc.mac 0).addr bs ++ rest } =
      finish { s with pending := rest, mac := storeFrom s.mac 0 bs } :=
  finish_writes (put := fun v => { s with mac := v })
    (fun _ i _ hi => have hl := locate_mac ⟨i, hi⟩; ⟨ne_zero_of_locate hl (by simp), by rw [hl]; rfl⟩)
    bs s.mac 0 (by omega) rest

theorem finish_writes_name (s : State) {bs : List Byte} (h : bs.length ≤ 6) (rest : List Event) :
    finish { s with pending := writes (Loc.name 0).addr bs ++ rest } =
      finish { s with pending := rest, name := storeFrom s.name 0 bs } :=
  finish_writes (put := fun v => { s with name := v })
    (fun _ i _ hi => have hl := locate_name ⟨i, hi⟩; ⟨ne_zero_of_locate hl (by simp), by rw [hl]; rfl⟩)
    bs s.name 0 (by omega) rest

theorem finish_writes_mfr (s : State) {bs : List Byte} (h : bs.length ≤ 8) (rest : List Event) :
    finish { s with pending := writes (Loc.mfr 0).addr bs ++ rest } =
      finish { s with pending := rest, mfr := storeFrom s.mfr 0 bs } :=
  finish_writes (put := fun v => { s with mfr := v })
    (fun _ i _ hi => have hl := locate_mfr ⟨i, hi⟩; ⟨ne_zero_of_locate hl (by simp), by rw [hl]; rfl⟩)
    bs s.mfr 0 (by omega) rest

theorem finish_writes_ad (s : State) {bs : List Byte} (h : bs.length ≤ 21) (rest : List Event) :
    finish { s with pending := writes (Loc.ad 0).addr bs ++ rest } =
      finish { s with pending := rest, ad := storeFrom s.ad 0 bs } :=
  finish_writes (put := fun v => { s with ad := v })
    (fun _ i _ hi => have hl := locate_ad ⟨i, hi⟩; ⟨ne_zero_of_locate hl (by simp), by rw [hl]; rfl⟩)
    bs s.ad 0 (by omega) rest

/-- A run that ends with a byte write outside CMD ends in the state with the byte stored. -/
theorem finish_last_wr {a : Byte} (ha : a ≠ 0x00) (s : State) (v : Byte) :
    finish { s with pending := [.wr a v] } = .next { s.store v (locate a) with pending := [] } :=
  (finish_wr ha s v []).trans (finish_nil rfl)

theorem finish_setmac (s : State) {bs : List Byte} (h : bs.length ≤ 6) :
    finish { s with pending := (HostOp.setmac bs).expand } =
      .next { s with pending := [], mac := storeFrom s.mac 0 bs } := by
  have hwrites := finish_writes_mac s h []
  rw [List.append_nil] at hwrites
  exact hwrites.trans (finish_nil rfl)

theorem finish_setname (s : State) {bs : List Byte} (h : bs.length ≤ 6) :
    finish { s with pending := (HostOp.setname bs).expand } =
      .next { s with pending := [], name := storeFrom s.name 0 bs, namelen := Byte.ofLength bs.length } :=
  (finish_writes_name s h _).trans
    (finish_last_wr (a := Loc.namelen.addr) (by decide) { s with name := storeFrom s.name 0 bs } _)

theorem finish_setmfr (s : State) {bs : List Byte} (h : bs.length ≤ 8) :
    finish { s with pending := (HostOp.setmfr bs).expand } =
      .next { s with pending := [], mfr := storeFrom s.mfr 0 bs, mfrlen := Byte.ofLength bs.length } :=
  (finish_writes_mfr s h _).trans
    (finish_last_wr (a := Loc.mfrlen.addr) (by decide) { s with mfr := storeFrom s.mfr 0 bs } _)

theorem finish_setad (s : State) {bs : List Byte} (h : bs.length ≤ 21) :
    finish { s with pending := (HostOp.setad bs).expand } =
      .next { s with pending := [], ad := storeFrom s.ad 0 bs, adlen := Byte.ofLength bs.length } :=
  (finish_writes_ad s h _).trans
    (finish_last_wr (a := Loc.adlen.addr) (by decide) { s with ad := storeFrom s.ad 0 bs } _)

theorem finish_settb (s : State) (k : Byte) {bs : List Byte} (h : k.toNat + bs.length ≤ 32) :
    finish { s with pending := (HostOp.settb k bs).expand } =
      .next { s with pending := [], mem := s.memWithTb k.toNat bs } := by
  have hwrites := finish_writes_tb s k.toNat bs h []
  rw [List.append_nil, BitVec.ofNat_toNat, BitVec.setWidth_eq] at hwrites
  exact hwrites.trans (finish_nil rfl)

/-- Settles O52: a mnemonic's run is its CMD write's, and each staging line's is one update of its file. -/
theorem mnemonicsAndStagingLinesTakeEffect : Obligations.MnemonicsAndStagingLinesTakeEffect := by
  refine ⟨⟨rfl, rfl, rfl, rfl, rfl, rfl, rfl, rfl, rfl, rfl⟩, finish_cmdWrite, fun s bs h => ?setmac,
    fun s bs h => ?setname, fun s bs h => ?setmfr, fun s k bs h => ?settb⟩
  case setmac => exact ⟨_, finish_setmac s h.le, by simp [toList_storeFrom s.mac h.le, h]⟩
  case setname => exact ⟨_, finish_setname s h, toList_storeFrom s.name h⟩
  case setmfr => exact ⟨_, finish_setmfr s h, toList_storeFrom s.mfr h⟩
  case settb => exact ⟨_, finish_settb s k h, s.memWithTb_fills_range rfl⟩

/-- Settles O54: AD takes the bytes from its front on, and ADLEN counts them. -/
theorem setadStagesBytes : Obligations.SetadStagesBytes := by
  intro s bs h
  refine ⟨_, finish_setad s h, ?_, rfl, fun i hi => ?_⟩
  · rw [State.adBytes, toList_storeFrom s.ad h, toNat_ofLength (by omega), List.take_left]
  · exact (getElem_storeFrom s.ad 0 bs i i.isLt).trans (dif_neg (by omega))

end Sys2Proof.Machine

/-! ## CRC-24 in normal form

Bit i of the register in wire order is bit 23-i of its normal form, in which a step without feedback is a left shift.
Its linearity gives the affine law, and a register fed its own bytes is shifted out to zero. -/

namespace Sys2Proof.Machine

/-! ### The normal form -/

/-- Bit 23-i of the normal form leaves the register as its bit i, byte0 first (R153). -/
theorem CrcReg.getLsbD_normal (c : CrcReg) {i : Nat} (hi : i < 24) :
    c.normal.getLsbD i =
      if i < 8 then c.c2.getLsbD (7 - i) else if i < 16 then c.c1.getLsbD (15 - i) else c.c0.getLsbD (23 - i) := by
  rw [CrcReg.normal, BitVec.getLsbD_append, BitVec.getLsbD_append]
  split_ifs with h₂ h₁ h₁' h₀
  · exact getLsbD_rev8 _ h₂
  · rw [getLsbD_rev8 _ (by omega)]; congr 1; omega
  · omega
  · omega
  · rw [getLsbD_rev8 _ (by omega)]; congr 1; omega

theorem eq_and_eq_of_append_eq {m n : Nat} {x y : BitVec m} {z w : BitVec n} (h : x ++ z = y ++ w) : x = y ∧ z = w :=
  ⟨by simpa only [BitVec.extractLsb'_append_eq_left] using congrArg (BitVec.extractLsb' n m) h,
    by simpa only [BitVec.setWidth_append_eq_right] using congrArg (BitVec.setWidth n) h⟩

theorem rev8_injective : Function.Injective rev8 := Function.LeftInverse.injective rev8_rev8

/-- The register is its three bytes in reverse bit order, which rev8 turns back. -/
theorem CrcReg.normal_injective : Function.Injective CrcReg.normal := by
  rintro ⟨c0, c1, c2⟩ ⟨d0, d1, d2⟩ h
  obtain ⟨h, h2⟩ := eq_and_eq_of_append_eq h
  obtain ⟨h0, h1⟩ := eq_and_eq_of_append_eq h
  obtain rfl : c0 = d0 := rev8_injective h0
  obtain rfl : c1 = d1 := rev8_injective h1
  obtain rfl : c2 = d2 := rev8_injective h2
  rfl

theorem CrcReg.normal_xor (c d : CrcReg) : (c.xor d).normal = c.normal ^^^ d.normal := by
  apply BitVec.eq_of_getLsbD_eq
  intro i hi
  simp only [BitVec.getLsbD_xor, CrcReg.getLsbD_normal _ hi, CrcReg.xor]
  split_ifs <;> rfl

/-- A CRC step without feedback: the register shifts out a bit at bit 0 of byte0 (R150). -/
def CrcReg.shift (c : CrcReg) : CrcReg where
  c0 := (c.c0 >>> 1) ||| ((c.c1 &&& 0x01) <<< 7)
  c1 := (c.c1 >>> 1) ||| ((c.c2 &&& 0x01) <<< 7)
  c2 := c.c2 >>> 1

theorem CrcReg.normal_shift (c : CrcReg) : c.shift.normal = c.normal <<< 1 := by
  apply BitVec.eq_of_getLsbD_eq
  intro i hi
  rw [BitVec.getLsbD_shiftLeft, CrcReg.getLsbD_normal _ hi, CrcReg.getLsbD_normal c (i := i - 1) (by omega)]
  interval_cases i <;> simp [CrcReg.shift]

/-! ### The step -/

/-- The taps, in wire order (R150). -/
def crcTaps : CrcReg := ⟨0x00, Config.crcTap1, Config.crcTap2⟩

/-- A step shifts, and adds the taps when the bit shifted out differs from the data bit (R150). -/
theorem crcStep_eq (c : CrcReg) (d : Bool) :
    crcStep c d = if c.c0.getLsbD 0 != d then c.shift.xor crcTaps else c.shift := by
  simp [crcStep, CrcReg.shift, CrcReg.xor, crcTaps]

theorem CrcReg.getLsbD_normal_23 (c : CrcReg) : c.normal.getLsbD 23 = c.c0.getLsbD 0 :=
  c.getLsbD_normal (by decide)

/-- The polynomial of R153, when the bit shifted out of the normal form differs from the data bit. -/
theorem normal_crcStep (c : CrcReg) (d : Bool) :
    (crcStep c d).normal = (c.normal <<< 1) ^^^ (if c.normal.getLsbD 23 != d then 0x00065B else 0x000000) := by
  rw [crcStep_eq, CrcReg.getLsbD_normal_23]
  split
  · rw [CrcReg.normal_xor, CrcReg.normal_shift]; rfl
  · exact c.normal_shift.trans BitVec.xor_zero.symm

/-- Settles O43: the step by its polynomial, CRC_INIT by its value. -/
theorem crcStepRealisesPolynomial : Obligations.CrcStepRealisesPolynomial := ⟨normal_crcStep, rfl⟩

/-! ### The affine law -/

/-- The feedback of two steps adds up. -/
theorem crcFeedback_xor : ∀ m m' d d' : Bool,
    (if (m ^^ m') != (d ^^ d') then (0x00065B : BitVec 24) else 0x000000) =
      (if m != d then 0x00065B else 0x000000) ^^^ (if m' != d' then 0x00065B else 0x000000) := by decide

theorem crcStep_xor (c c' : CrcReg) (d d' : Bool) :
    crcStep (c.xor c') (d ^^ d') = (crcStep c d).xor (crcStep c' d') := by
  apply CrcReg.normal_injective
  rw [CrcReg.normal_xor, normal_crcStep, normal_crcStep, normal_crcStep, CrcReg.normal_xor,
    BitVec.shiftLeft_xor_distrib, BitVec.getLsbD_xor, crcFeedback_xor]
  ac_rfl

theorem crcByte_xor (c c' : CrcReg) (b b' : Byte) :
    crcByte (c.xor c') (b ^^^ b') = (crcByte c b).xor (crcByte c' b') := by
  simp only [crcByte, List.foldl_cons, List.foldl_nil, BitVec.getLsbD_xor, crcStep_xor]

theorem foldl_crcByte_xor (c c' : CrcReg) {a b : List Byte} (h : a.length = b.length) :
    (List.zipWith (· ^^^ ·) a b).foldl crcByte (c.xor c') = (a.foldl crcByte c).xor (b.foldl crcByte c') := by
  induction a generalizing b c c' with
  | nil => rw [List.eq_nil_of_length_eq_zero h.symm]; rfl
  | cons x a ih =>
    cases b with
    | nil => cases h
    | cons y b => simpa [crcByte_xor] using ih (crcByte c x) (crcByte c' y) (Nat.succ.inj h)

theorem zipWith_xor_zeros (a : List Byte) : List.zipWith (· ^^^ ·) a (List.replicate a.length 0x00) = a := by
  induction a with
  | nil => rfl
  | cons x a ih => simpa [List.replicate_succ] using ih

/-- Settles O45: CRC_INIT is the XOR of three of itself, and the data the XOR of three sequences, the last all zero. -/
theorem crcIsAffine : Obligations.CrcIsAffine := by
  intro a b h
  have hlen : (List.zipWith (· ^^^ ·) a b).length = a.length := by simp [h]
  have hinit : crcInit = (crcInit.xor crcInit).xor crcInit := by decide
  calc crc24 (List.zipWith (· ^^^ ·) a b)
    _ = (List.zipWith (· ^^^ ·) (List.zipWith (· ^^^ ·) a b) (List.replicate a.length 0x00)).foldl crcByte
          ((crcInit.xor crcInit).xor crcInit) := by rw [← hlen, zipWith_xor_zeros, ← hinit, crc24]
    _ = _ := by rw [foldl_crcByte_xor _ _ (by simp [h]), foldl_crcByte_xor _ _ h]; rfl

/-! ### The zero residue -/

theorem crcStep_own_bit (c : CrcReg) : crcStep c (c.c0.getLsbD 0) = c.shift := by
  simp [crcStep_eq]

theorem CrcReg.normal_iterate_shift (c : CrcReg) (k : Nat) : (CrcReg.shift^[k] c).normal = c.normal <<< k := by
  induction k with
  | zero => simp
  | succ k ih => rw [Function.iterate_succ_apply', CrcReg.normal_shift, ih, BitVec.shiftLeft_add]

/-- The bits of byte0 leave the register in their order. -/
theorem CrcReg.getLsbD_iterate_shift (c : CrcReg) {k : Nat} (hk : k < 8) :
    (CrcReg.shift^[k] c).c0.getLsbD 0 = c.c0.getLsbD k := by
  rw [← CrcReg.getLsbD_normal_23, CrcReg.normal_iterate_shift, BitVec.getLsbD_shiftLeft,
    CrcReg.getLsbD_normal c (by omega)]
  rw [if_neg (by omega), if_neg (by omega), Nat.sub_sub_self (by omega)]
  simp [show ¬ 23 < k by omega]

/-- After eight shifts byte1 and byte2 have moved up. -/
theorem CrcReg.iterate_shift_eight (c : CrcReg) : CrcReg.shift^[8] c = ⟨c.c1, c.c2, 0x00⟩ := by
  apply CrcReg.normal_injective
  rw [CrcReg.normal_iterate_shift]
  apply BitVec.eq_of_getLsbD_eq
  intro i hi
  rw [BitVec.getLsbD_shiftLeft, CrcReg.getLsbD_normal _ hi, CrcReg.getLsbD_normal c (i := i - 8) (by omega)]
  interval_cases i <;> simp

/-- A register fed bits of its own byte0 shifts them out without feedback. -/
theorem foldl_crcStep_own_bits (c : CrcReg) {n : Nat} (hn : n ≤ 8) :
    (List.range n).foldl (fun r i => crcStep r (c.c0.getLsbD i)) c = CrcReg.shift^[n] c := by
  induction n with
  | zero => rfl
  | succ n ih =>
    rw [List.range_succ, List.foldl_append, ih (by omega), List.foldl_cons, List.foldl_nil,
      ← c.getLsbD_iterate_shift hn, crcStep_own_bit, Function.iterate_succ_apply']

theorem crcByte_own_byte (c : CrcReg) : crcByte c c.c0 = ⟨c.c1, c.c2, 0x00⟩ :=
  (foldl_crcStep_own_bits c le_rfl).trans c.iterate_shift_eight

theorem foldl_crcByte_own_bytes (c : CrcReg) : c.bytes.foldl crcByte c = ⟨0x00, 0x00, 0x00⟩ := by
  simp only [CrcReg.bytes, List.foldl_cons, List.foldl_nil, crcByte_own_byte]
  rw [crcByte_own_byte ⟨c.c1, c.c2, 0x00⟩, crcByte_own_byte ⟨c.c2, 0x00, 0x00⟩]

/-- Settles O44: the pass goes on from the CRC of the bytes over its own three bytes. -/
theorem crcZeroResidue : Obligations.CrcZeroResidue := fun bytes => by
  rw [crc24_append, foldl_crcByte_own_bytes]

end Sys2Proof.Machine

/-! ## Whitening, as a function -/

namespace Sys2Proof.Machine

/-- Settles O47: both passes XOR the same keystream, which the data does not change. -/
theorem whiteningIsInvolution : Obligations.WhiteningIsInvolution := by
  intro l bytes
  induction bytes generalizing l with
  | nil => rfl
  | cons b bs ih => simp [ih]

/-! ### The shift -/

theorem whBit_eq (l : BitVec 7) (m : Byte) (i : Nat) :
    whBit (l, m) i =
      ((l >>> 1) ^^^ (if l.getLsbD 0 then 0x44 else 0x00), m ||| (if l.getLsbD 0 then 0x01#8 <<< i else 0x00)) := by
  have htap : ∀ l : BitVec 7, ((l.setWidth 8 ^^^ Config.whTap) >>> 1).setWidth 7 = (l >>> 1) ^^^ 0x44 := by decide
  simp only [whBit, htap]
  split
  · rfl
  · exact Prod.ext BitVec.xor_zero.symm BitVec.or_zero.symm

/-- The shift the other way: bit 6 is the bit that was shifted out. -/
def lfsrUnshift (l : BitVec 7) : BitVec 7 := ((if l.getLsbD 6 then l ^^^ 0x44 else l) <<< 1) ||| (l >>> 6)

theorem lfsrUnshift_lfsrShift : ∀ l : BitVec 7, lfsrUnshift (lfsrShift l) = l := by decide

theorem lfsrShift_lfsrUnshift : ∀ l : BitVec 7, lfsrShift (lfsrUnshift l) = l := by decide

theorem eq_zero_of_lfsrShift_eq : ∀ l : BitVec 7, lfsrShift l = l → l = 0 := by decide

theorem lfsrShift_period : ∀ l : BitVec 7, lfsrShift^[127] l = l := by decide +kernel

/-- No shorter period than 127, which is prime: a value with one would be a fixed point. -/
theorem lfsrShift_iterate_ne {l : BitVec 7} (hl : l ≠ 0) {k : Nat} (hk : 0 < k) (hk' : k < 127) :
    lfsrShift^[k] l ≠ l := by
  intro h
  have hcoprime : Nat.gcd 127 k = 1 := Nat.coprime_of_lt_prime hk.ne' hk' (by norm_num)
  have hone : Function.IsPeriodicPt lfsrShift (Nat.gcd 127 k) l := Function.IsPeriodicPt.gcd (lfsrShift_period l) h
  rw [hcoprime] at hone
  exact hl (eq_zero_of_lfsrShift_eq l hone)

/-! ### A pass, bit by bit -/

theorem whPass_lfsr_eq_iterate (l : BitVec 7) (bytes : List Byte) :
    (whPass l bytes).2 = lfsrShift^[8 * bytes.length] l := by
  induction bytes generalizing l with
  | nil => rfl
  | cons b bs ih =>
    rw [whPass_cons, ih, whMask_lfsr, ← Function.iterate_add_apply, List.length_cons, Nat.mul_succ]

theorem whPass_getLsbD {l : BitVec 7} {bytes : List Byte} {k i : Nat} {b : Byte} (hb : bytes[k]? = some b)
    (hi : i < 8) :
    ∃ w, (whPass l bytes).1[k]? = some w ∧ w.getLsbD i = (b.getLsbD i ^^ (lfsrShift^[8 * k + i] l).getLsbD 0) := by
  induction bytes generalizing l k with
  | nil => cases hb
  | cons c cs ih =>
    rw [whPass_cons]
    cases k with
    | zero =>
      obtain rfl : c = b := by simpa using hb
      exact ⟨_, rfl, by rw [BitVec.getLsbD_xor, whMask_getLsbD l ⟨i, hi⟩, Nat.mul_zero, Nat.zero_add]⟩
    | succ k =>
      obtain ⟨w, hw, hbit⟩ := ih (l := (whMask l).1) (k := k) (by simpa using hb)
      rw [whMask_lfsr, ← Function.iterate_add_apply, Nat.add_right_comm, ← Nat.mul_succ] at hbit
      exact ⟨w, by simpa using hw, hbit⟩

/-- Settles O48: one shift by its inverse and its prime period, a pass by induction over its bytes. -/
theorem whiteningLfsrStructure : Obligations.WhiteningLfsrStructure :=
  ⟨whBit_eq, fun _ _ h => Function.LeftInverse.injective lfsrUnshift_lfsrShift h,
    fun l => ⟨lfsrUnshift l, lfsrShift_lfsrUnshift l⟩, rfl,
    fun l hl => ⟨lfsrShift_period l, fun _ => lfsrShift_iterate_ne hl⟩,
    fun l bytes => ⟨whPass_lfsr_eq_iterate l bytes, length_whPass l bytes, fun _ _ _ => whPass_getLsbD⟩⟩

end Sys2Proof.Machine

/-! ## The transmit path by hand, and back

WHITEN and REVERSE over a frame at the start of TB, whose bytes are given as a sequence that TB holds. -/

namespace Sys2Proof.Machine

/-! ### Over the start of TB -/

/-- TB starts with the bytes bs, and START and LEN name these. -/
structure State.RangeHolds (s : State) (bs : List Byte) : Prop where
  start : s.start = 0
  len : s.len.toNat = bs.length
  fits : bs.length ≤ 32
  holds : s.mem.Holds 0x80 bs

theorem State.RangeHolds.rangeLegal {s : State} {bs : List Byte} (h : s.RangeHolds bs) : s.rangeLegal = true := by
  have hfits := h.fits
  rw [State.rangeLegal_iff, h.start, h.len]
  simpa using hfits

theorem State.RangeHolds.tbRange {s : State} {bs : List Byte} (h : s.RangeHolds bs) : s.tbRange = bs := by
  rw [State.tbRange, h.start, h.len]
  exact h.holds

/-- The state in which WHITEN ends over the bytes TB starts with (R173). -/
def State.whitened (c : Fin 3) (bs : List Byte) (s : State) : State :=
  ((s.setMem (s.memWithTb 0 (whPass (whSeed c) bs).1)).setWlfsr (whPass (whSeed c) bs).2).succeeded

/-- The state in which REVERSE ends over the bytes TB starts with (R191). -/
def State.reversed (bs : List Byte) (s : State) : State := (s.setMem (s.memWithTb 0 (bs.map rev8))).succeeded

theorem execWhiten_of_rangeHolds {s : State} {c : Fin 3} {bs : List Byte} (h : s.RangeHolds bs)
    (hc : s.channel = some c) : execWhiten s = .next (s.whitened c bs) := by
  rw [execWhiten_of_legal hc h.rangeLegal, h.tbRange, h.start]
  rfl

theorem execReverse_of_rangeHolds {s : State} {bs : List Byte} (h : s.RangeHolds bs) :
    execReverse s = .next (s.reversed bs) := by
  rw [execReverse_of_legal h.rangeLegal, h.tbRange, h.start]
  rfl

theorem State.RangeHolds.whitened {s : State} {bs : List Byte} (h : s.RangeHolds bs) (c : Fin 3) :
    (s.whitened c bs).RangeHolds (whPass (whSeed c) bs).1 where
  start := h.start
  len := h.len.trans (length_whPass ..).symm
  fits := (length_whPass ..).trans_le h.fits
  holds := s.mem.holds_writeBytes 0x80 _

theorem State.RangeHolds.reversed {s : State} {bs : List Byte} (h : s.RangeHolds bs) :
    (s.reversed bs).RangeHolds (bs.map rev8) where
  start := h.start
  len := h.len.trans (List.length_map _).symm
  fits := (List.length_map _).trans_le h.fits
  holds := s.mem.holds_writeBytes 0x80 _

/-- Bytes written over the front of others leave the rest of these. -/
theorem Memory.writeBytes_over_front {m : Memory} (h : m.wf = true) (a : Nat) {vs ws : List Byte} (zs : List Byte)
    (hlen : vs.length = ws.length) : (m.writeBytes a (vs ++ zs)).writeBytes a ws = m.writeBytes a (ws ++ zs) := by
  refine Memory.ext_of_read (Memory.wf_writeBytes a ws (Memory.wf_writeBytes a _ h)) (Memory.wf_writeBytes a _ h)
    fun b => ?_
  simp only [Memory.read_writeBytes, List.length_append, hlen]
  by_cases hfront : a ≤ b ∧ b < a + ws.length
  · rw [dif_pos hfront, dif_pos (by omega), List.getElem_append_left (by omega)]
  · rw [dif_neg hfront]
    split
    · rw [List.getElem_append_right (by omega), List.getElem_append_right (by omega)]
      simp only [hlen]
    · rfl

/-! ### ENCODE by hand -/

theorem State.getElem_fbBytes (s : State) {n i : Nat} (h : i < (s.fbBytes 0 n).length) :
    (s.fbBytes 0 n)[i] = s.fbByte i := s.mem.getElem_readBytes 0x60 n i h

/-- FB is its frame and zeros after it (R44). -/
theorem State.fbBytes_eq_frame_append_zeros {s : State} (hpad : s.ZeroPadding) (hn : s.flen.toNat ≤ 32) :
    s.fbBytes 0 32 = s.fbBytes 0 s.flen.toNat ++ List.replicate (32 - s.flen.toNat) 0x00 := by
  apply List.ext_getElem (by simp; omega)
  intro i hi _
  have hi : i < 32 := by simpa using hi
  rw [List.getElem_append]
  split
  · rw [State.getElem_fbBytes, State.getElem_fbBytes]
  · next hge =>
    simp only [State.length_fbBytes, Nat.not_lt] at hge
    rw [List.getElem_replicate, State.getElem_fbBytes]
    exact hpad i hi hge

/-- The state after COPY, with START and LEN naming the frame's copy in TB (R203). -/
def State.copied (s : State) : State :=
  { (s.setMem (s.memWithTb 0 (s.fbBytes 0 32))).succeeded with start := 0, len := s.flen }

theorem State.rangeHolds_copied {s : State} (hpad : s.ZeroPadding) (hn : s.flen.toNat ≤ 32) :
    s.copied.RangeHolds (s.fbBytes 0 s.flen.toNat) where
  start := rfl
  len := (s.length_fbBytes 0 _).symm
  fits := (s.length_fbBytes 0 _).trans_le hn
  holds := by
    have hholds : s.copied.mem.Holds 0x80
        (s.fbBytes 0 s.flen.toNat ++ List.replicate (32 - s.flen.toNat) 0x00) := by
      rw [← State.fbBytes_eq_frame_append_zeros hpad hn]
      exact s.mem.holds_writeBytes 0x80 _
    exact (Memory.holds_append.mp hholds).1

/-- The whitened and the reversed bytes take the place of the copied frame, before the zeros that COPY took from FB. -/
theorem State.reversed_whitened_copied {s : State} (hwf : s.mem.wf = true) (hpad : s.ZeroPadding)
    (hn : s.flen.toNat ≤ 32) (c : Fin 3) :
    (s.copied.whitened c (s.fbBytes 0 s.flen.toNat)).reversed (whPass (whSeed c) (s.fbBytes 0 s.flen.toNat)).1 =
      { s.encoded c with start := 0, len := s.flen } := by
  have hlen := (length_whPass (whSeed c) (s.fbBytes 0 s.flen.toNat)).trans (s.length_fbBytes 0 _)
  have hmem : (((s.mem.writeBytes 0x80 (s.fbBytes 0 32)).writeBytes 0x80
      (whPass (whSeed c) (s.fbBytes 0 s.flen.toNat)).1).writeBytes 0x80
        ((whPass (whSeed c) (s.fbBytes 0 s.flen.toNat)).1.map rev8)) =
      s.mem.writeBytes 0x80 (encodedBuffer (whPass (whSeed c) (s.fbBytes 0 s.flen.toNat)).1) := by
    rw [State.fbBytes_eq_frame_append_zeros hpad hn, Memory.writeBytes_over_front hwf 0x80 _ (by simp),
      Memory.writeBytes_over_front hwf 0x80 _ (by simp), encodedBuffer, hlen]
  exact congrArg (fun m => { s.encoded c with start := 0, len := s.flen, mem := m }) hmem

/-- Settles O49: each command of the sequence runs over the bytes that the one before has left in TB. -/
theorem encodeEqualsHandSequence : Obligations.EncodeEqualsHandSequence := by
  intro s hinv hf hs
  obtain ⟨hframe, hwf, -⟩ := s.inv_iff.mp hinv
  obtain ⟨c, hc⟩ := State.exists_channel hs
  have hn := (hframe.prepared hf).2
  have hcopied := State.rangeHolds_copied hframe.padding hn
  exact ⟨_, _, _, _, rfl, execWhiten_of_rangeHolds hcopied hc, execReverse_of_rangeHolds (hcopied.whitened c),
    execEncode_eq_encoded hf hc hn, State.reversed_whitened_copied hwf hframe.padding hn c⟩

/-! ### An encoded frame decoded -/

/-- TB starts with the encoded frame after ENCODE (R202). -/
theorem State.rangeHolds_encoded {s : State} (hn : s.flen.toNat ≤ 32) (c : Fin 3) :
    ({ s.encoded c with start := 0, len := s.flen } : State).RangeHolds
      ((whPass (whSeed c) (s.fbBytes 0 s.flen.toNat)).1.map rev8) where
  start := rfl
  len := by simp
  fits := by simpa using hn
  holds := (Memory.holds_encodedBuffer_iff.mp (s.mem.holds_writeBytes 0x80 _)).1

/-- ENCODE, REVERSE and WHITEN in turn leave the frame at the start of TB: each of the last two undoes one half of what
the first has done (R263). -/
theorem exists_decoded {s : State} {c : Fin 3} (hf : s.fstate = .prepared) (hc : s.channel = some c)
    (hn : s.flen.toNat ≤ 32) :
    ∃ t u v, execEncode s = .next t ∧ execReverse { t with start := 0, len := s.flen } = .next u ∧
      execWhiten u = .next v ∧ v.RangeHolds (s.fbBytes 0 s.flen.toNat) := by
  have hencoded := State.rangeHolds_encoded hn c
  have hreversed := hencoded.reversed
  rw [List.map_map, (funext rev8_rev8 : rev8 ∘ rev8 = id), List.map_id] at hreversed
  have hdecoded := hreversed.whitened c
  rw [whiteningIsInvolution] at hdecoded
  exact ⟨_, _, _, execEncode_eq_encoded hf hc hn, execReverse_of_rangeHolds hencoded,
    execWhiten_of_rangeHolds hreversed hc, hdecoded⟩

/-- CRC over the first n bytes of TB (R155). -/
theorem execCrc_of_rangeHolds {s : State} {bs cs : List Byte} (h : s.RangeHolds cs) (hfront : bs <+: cs) {n : Byte}
    (hn : n.toNat = bs.length) :
    execCrc { s with sel := 1, len := n } = .next { s with sel := 1, len := n, crc := crc24 bs, err := .ok } := by
  have hlegal : s.start.toNat + n.toNat ≤ 32 := by
    rw [h.start, hn]
    simpa using hfront.length_le.trans h.fits
  have hinput : ({ s with sel := 1, len := n } : State).selectedBytes = bs := by
    obtain ⟨ds, rfl⟩ := hfront
    rw [State.selectedBytes, if_neg (by simp), h.start, hn]
    exact (Memory.holds_append.mp h.holds).1
  rw [execCrc_eq_next_of_legal hlegal, State.crcInput_eq_selectedBytes, hinput]

/-- A PREPARED frame is the bytes before its last three, and the CRC of these (R44). -/
theorem State.frame_eq_append_crc {s : State} (hcrc : s.PreparedCrc) (hf : s.fstate = .prepared)
    (hn : 3 ≤ s.flen.toNat) :
    s.fbBytes 0 s.flen.toNat =
      s.fbBytes 0 (s.flen.toNat - 3) ++ (crc24 (s.fbBytes 0 (s.flen.toNat - 3))).bytes := by
  rw [← hcrc hf]
  apply List.ext_getElem (by simp; omega)
  intro i _ _
  rw [List.getElem_append]
  split
  · rw [State.getElem_fbBytes, State.getElem_fbBytes]
  · next hge =>
    simp only [State.length_fbBytes, Nat.not_lt] at hge
    simp only [State.fbBytes, Memory.getElem_readBytes, Memory.length_readBytes]
    congr 1
    omega

/-- Settles O51: the decoded frame in TB ends in the CRC of the bytes before it. -/
theorem encodedFrameDecodes : Obligations.EncodedFrameDecodes := by
  intro s hinv hf hs
  obtain ⟨hframe, -⟩ := s.inv_iff.mp hinv
  obtain ⟨c, hc⟩ := State.exists_channel hs
  obtain ⟨hlow, hn⟩ := hframe.prepared hf
  obtain ⟨t, u, v, ht, hu, hv, hdecoded⟩ := exists_decoded hf hc hn
  have hparts := State.frame_eq_append_crc hframe.crc hf (by omega)
  have hlen : (s.flen - 3).toNat = (s.fbBytes 0 (s.flen.toNat - 3)).length := by rw [s.length_fbBytes]; bv_omega
  have hfront := execCrc_of_rangeHolds hdecoded ⟨_, hparts.symm⟩ hlen
  have hwhole := execCrc_of_rangeHolds hdecoded ⟨[], List.append_nil _⟩ hdecoded.len
  refine ⟨t, u, v, _, _, ht, hu, hv, fun k hk => ?_, hfront, ?_, hwhole, ?_⟩
  · exact (hdecoded.holds.read (by simpa using hk)).trans (s.getElem_fbBytes _)
  · rw [s.frame_eq_fbBytes, hframe.crc hf]
  · simp only [hparts, crcZeroResidue _]

end Sys2Proof.Machine
